-- ==== Sys2Proof/Word.lean ====
section
/-! DEFINITION. The word types of the core: the widths of spec/00_scope.md R7. All values are unsigned (R10). -/

namespace Sys2Proof

/-- An 8-bit value: a register V[i], a timer, a byte of memory, an immediate KK (R7, R71). -/
abbrev Byte := BitVec 8

/-- A 16-bit value: pc, I, a stack entry, an instruction word (R7, R70). -/
abbrev Word := BitVec 16

/-- The 12-bit immediate NNN of an instruction word (30_encoding.md R71). -/
abbrev Addr := BitVec 12

/-- A register index, a key code or a stack index: one of sixteen (R7). -/
abbrev Reg := Fin 16

/-- VF, register 15, both a general register and the flag (10_state.md R21). -/
abbrev VF : Reg := 15

end Sys2Proof
end

