-- ==== Sys2Proof/Syntax.lean ====
section
/-! DEFINITION. The instructions: one constructor per row of spec/opcode_table.json, in the order of 30_encoding.md R72.
An unrecognised word (R74) is no row of the table and no constructor: the decoder rejects it by name. -/

namespace Sys2Proof

/-- The 35 instructions of 30_encoding.md R72 with the operand fields of R71: `x` and `y` are register indices, `kk` the
immediate byte, `nnn` the immediate address, `n` the sprite height. -/
inductive Instr where
  /-- 0NNN, SYS NNN (R100). -/
  | sys (nnn : Addr)
  /-- 00E0, CLS (R161). -/
  | cls
  /-- 00EE, RET (R101). -/
  | ret
  /-- 1NNN, JP NNN (R102). -/
  | jp (nnn : Addr)
  /-- 2NNN, CALL NNN (R103). -/
  | call (nnn : Addr)
  /-- 3XKK, SE Vx, KK (R104). -/
  | seImm (x : Reg) (kk : Byte)
  /-- 4XKK, SNE Vx, KK (R105). -/
  | sneImm (x : Reg) (kk : Byte)
  /-- 5XY0, SE Vx, Vy (R106). -/
  | seReg (x y : Reg)
  /-- 6XKK, LD Vx, KK (R121). -/
  | ldImm (x : Reg) (kk : Byte)
  /-- 7XKK, ADD Vx, KK (R122). -/
  | addImm (x : Reg) (kk : Byte)
  /-- 8XY0, LD Vx, Vy (R123). -/
  | ldReg (x y : Reg)
  /-- 8XY1, OR Vx, Vy (R124). -/
  | orReg (x y : Reg)
  /-- 8XY2, AND Vx, Vy (R125). -/
  | andReg (x y : Reg)
  /-- 8XY3, XOR Vx, Vy (R126). -/
  | xorReg (x y : Reg)
  /-- 8XY4, ADD Vx, Vy (R127). -/
  | addReg (x y : Reg)
  /-- 8XY5, SUB Vx, Vy (R128). -/
  | sub (x y : Reg)
  /-- 8XY6, SHR Vx, Vy (R129). -/
  | shr (x y : Reg)
  /-- 8XY7, SUBN Vx, Vy (R130). -/
  | subn (x y : Reg)
  /-- 8XYE, SHL Vx, Vy (R131). -/
  | shl (x y : Reg)
  /-- 9XY0, SNE Vx, Vy (R107). -/
  | sneReg (x y : Reg)
  /-- ANNN, LD I, NNN (R140). -/
  | ldI (nnn : Addr)
  /-- BNNN, JP V0, NNN (R108); with Jumping = 1 the top nibble of `nnn` is also a register index. -/
  | jpV0 (nnn : Addr)
  /-- CXKK, RND Vx, KK (R132). -/
  | rnd (x : Reg) (kk : Byte)
  /-- DXYN, DRW Vx, Vy, N (R162). -/
  | drw (x y : Reg) (n : Fin 16)
  /-- EX9E, SKP Vx (R180). -/
  | skp (x : Reg)
  /-- EXA1, SKNP Vx (R181). -/
  | sknp (x : Reg)
  /-- FX07, LD Vx, DT (R182). -/
  | ldVxDt (x : Reg)
  /-- FX0A, LD Vx, K (R183). -/
  | ldVxK (x : Reg)
  /-- FX15, LD DT, Vx (R184). -/
  | ldDtVx (x : Reg)
  /-- FX18, LD ST, Vx (R185). -/
  | ldStVx (x : Reg)
  /-- FX1E, ADD I, Vx (R141). -/
  | addI (x : Reg)
  /-- FX29, LD F, Vx (R142). -/
  | ldF (x : Reg)
  /-- FX33, LD B, Vx (R143). -/
  | ldB (x : Reg)
  /-- FX55, LD [I], Vx (R144). -/
  | storeRegs (x : Reg)
  /-- FX65, LD Vx, [I] (R145). -/
  | loadRegs (x : Reg)
  deriving DecidableEq, Repr

end Sys2Proof
end

