-- ==== Sys2Proof/WellFormed.lean ====
section
/-! DEFINITION. Which terms of `Instr` are instructions: those some word decodes to. The types bound every field; the one
check left is that SYS does not take the two words of family 0 that come before it (30_encoding.md R73). -/

namespace Sys2Proof

/-- The NNN fields that are not SYS: 0x00E0 is CLS and 0x00EE is RET, "the first matching line wins" (R73, R100). -/
def Addr.isSys (nnn : Addr) : Bool :=
  nnn != 0x0E0#12 && nnn != 0x0EE#12

/-- A well-formed instruction: one that some word encodes. -/
def Instr.wf : Instr → Bool
  | .sys nnn => Addr.isSys nnn
  | .cls | .ret | .jp _ | .call _ | .seImm _ _ | .sneImm _ _ | .seReg _ _ | .ldImm _ _ | .addImm _ _ | .ldReg _ _
  | .orReg _ _ | .andReg _ _ | .xorReg _ _ | .addReg _ _ | .sub _ _ | .shr _ _ | .subn _ _ | .shl _ _ | .sneReg _ _
  | .ldI _ | .jpV0 _ | .rnd _ _ | .drw _ _ _ | .skp _ | .sknp _ | .ldVxDt _ | .ldVxK _ | .ldDtVx _ | .ldStVx _
  | .addI _ | .ldF _ | .ldB _ | .storeRegs _ | .loadRegs _ => true

end Sys2Proof
end

