-- ==== Sys2Proof/Decode.lean ====
section
/-! DEFINITION. The decoder (spec/30_encoding.md R71, R73), total on every word and every list of bytes, and after it the
encoder, written from the table of R72. -/

namespace Sys2Proof

/-- The unrecognised words of R74, by family and with the sub-operation the word holds. They are no errors of the machine:
the step runs them as the no-operation of R74 (log entry 6). -/
inductive Unrecognised where
  /-- 5XYn with n ≠ 0. -/
  | family5 (n : Nat)
  /-- 8XYn with n none of 0 to 7 and E. -/
  | family8 (n : Nat)
  /-- 9XYn with n ≠ 0. -/
  | family9 (n : Nat)
  /-- EXkk with kk neither 9E nor A1. -/
  | familyE (kk : Nat)
  /-- FXkk with kk none of the nine sub-operations. -/
  | familyF (kk : Nat)
  deriving DecidableEq, Repr

/-- Why a list of bytes gives no instruction. -/
inductive DecodeError where
  /-- Fewer than the two bytes every instruction has (R70). -/
  | truncated
  /-- The first two bytes are an unrecognised word. -/
  | unrecognised (why : Unrecognised)
  deriving DecidableEq, Repr

/-! ## The fields of a word (R71) -/

/-- F, `op[15:12]`, as a number. -/
def fieldF (op : Word) : Nat := (op.extractLsb' 12 4).toNat

/-- X, `op[11:8]`. -/
def fieldX (op : Word) : Reg := (op.extractLsb' 8 4).toFin

/-- Y, `op[7:4]`. -/
def fieldY (op : Word) : Reg := (op.extractLsb' 4 4).toFin

/-- N, `op[3:0]`. -/
def fieldN (op : Word) : Fin 16 := (op.extractLsb' 0 4).toFin

/-- KK, `op[7:0]`. -/
def fieldKK (op : Word) : Byte := op.extractLsb' 0 8

/-- NNN, `op[11:0]`. -/
def fieldNNN (op : Word) : Addr := op.extractLsb' 0 12

/-! ## The decoder (R73) -/

/-- Family 0: CLS and RET before SYS. -/
def decodeFamily0 (op : Word) : Instr :=
  if op = 0x00E0#16 then .cls
  else if op = 0x00EE#16 then .ret
  else .sys (fieldNNN op)

/-- Family 8, by its low nibble. -/
def decodeFamily8 (op : Word) : Except Unrecognised Instr :=
  match (fieldN op).val with
  | 0x0 => .ok (.ldReg (fieldX op) (fieldY op))
  | 0x1 => .ok (.orReg (fieldX op) (fieldY op))
  | 0x2 => .ok (.andReg (fieldX op) (fieldY op))
  | 0x3 => .ok (.xorReg (fieldX op) (fieldY op))
  | 0x4 => .ok (.addReg (fieldX op) (fieldY op))
  | 0x5 => .ok (.sub (fieldX op) (fieldY op))
  | 0x6 => .ok (.shr (fieldX op) (fieldY op))
  | 0x7 => .ok (.subn (fieldX op) (fieldY op))
  | 0xE => .ok (.shl (fieldX op) (fieldY op))
  | n => .error (.family8 n)

/-- Family E, by its low byte. -/
def decodeFamilyE (op : Word) : Except Unrecognised Instr :=
  match (fieldKK op).toNat with
  | 0x9E => .ok (.skp (fieldX op))
  | 0xA1 => .ok (.sknp (fieldX op))
  | kk => .error (.familyE kk)

/-- Family F, by its low byte. -/
def decodeFamilyF (op : Word) : Except Unrecognised Instr :=
  match (fieldKK op).toNat with
  | 0x07 => .ok (.ldVxDt (fieldX op))
  | 0x0A => .ok (.ldVxK (fieldX op))
  | 0x15 => .ok (.ldDtVx (fieldX op))
  | 0x18 => .ok (.ldStVx (fieldX op))
  | 0x1E => .ok (.addI (fieldX op))
  | 0x29 => .ok (.ldF (fieldX op))
  | 0x33 => .ok (.ldB (fieldX op))
  | 0x55 => .ok (.storeRegs (fieldX op))
  | 0x65 => .ok (.loadRegs (fieldX op))
  | kk => .error (.familyF kk)

/-- The instruction of a word, or the reason it has none (R73). The family is four bits, so the last arm is family F. -/
def decodeWord (op : Word) : Except Unrecognised Instr :=
  match fieldF op with
  | 0x0 => .ok (decodeFamily0 op)
  | 0x1 => .ok (.jp (fieldNNN op))
  | 0x2 => .ok (.call (fieldNNN op))
  | 0x3 => .ok (.seImm (fieldX op) (fieldKK op))
  | 0x4 => .ok (.sneImm (fieldX op) (fieldKK op))
  | 0x5 => if fieldN op = 0 then .ok (.seReg (fieldX op) (fieldY op)) else .error (.family5 (fieldN op))
  | 0x6 => .ok (.ldImm (fieldX op) (fieldKK op))
  | 0x7 => .ok (.addImm (fieldX op) (fieldKK op))
  | 0x8 => decodeFamily8 op
  | 0x9 => if fieldN op = 0 then .ok (.sneReg (fieldX op) (fieldY op)) else .error (.family9 (fieldN op))
  | 0xA => .ok (.ldI (fieldNNN op))
  | 0xB => .ok (.jpV0 (fieldNNN op))
  | 0xC => .ok (.rnd (fieldX op) (fieldKK op))
  | 0xD => .ok (.drw (fieldX op) (fieldY op) (fieldN op))
  | 0xE => decodeFamilyE op
  | _ => decodeFamilyF op

/-- Two bytes as one word, the first byte high (20_memory.md R52). -/
def wordOfBytes (hi lo : Byte) : Word := hi ++ lo

/-- The first instruction of a list of bytes and the bytes after it; a decoder always consumes two (R70). -/
def decodeBytes : List Byte → Except DecodeError (Instr × List Byte)
  | hi :: lo :: rest =>
    match decodeWord (wordOfBytes hi lo) with
    | .ok i => .ok (i, rest)
    | .error why => .error (.unrecognised why)
  | _ => .error .truncated

/-! ## The encoder (R71, R72) -/

/-- The word FNNN. -/
def wordFNNN (f : BitVec 4) (nnn : Addr) : Word := f ++ nnn

/-- The word FXKK. -/
def wordFXKK (f : BitVec 4) (x : Reg) (kk : Byte) : Word := f ++ (BitVec.ofFin x : BitVec 4) ++ kk

/-- The word FXYN. -/
def wordFXYN (f : BitVec 4) (x y : Reg) (n : Fin 16) : Word :=
  f ++ (BitVec.ofFin x : BitVec 4) ++ (BitVec.ofFin y : BitVec 4) ++ (BitVec.ofFin n : BitVec 4)

/-- The word of an instruction, row by row of R72. -/
def encode : Instr → Word
  | .sys nnn => wordFNNN 0x0 nnn
  | .cls => 0x00E0#16
  | .ret => 0x00EE#16
  | .jp nnn => wordFNNN 0x1 nnn
  | .call nnn => wordFNNN 0x2 nnn
  | .seImm x kk => wordFXKK 0x3 x kk
  | .sneImm x kk => wordFXKK 0x4 x kk
  | .seReg x y => wordFXYN 0x5 x y 0x0
  | .ldImm x kk => wordFXKK 0x6 x kk
  | .addImm x kk => wordFXKK 0x7 x kk
  | .ldReg x y => wordFXYN 0x8 x y 0x0
  | .orReg x y => wordFXYN 0x8 x y 0x1
  | .andReg x y => wordFXYN 0x8 x y 0x2
  | .xorReg x y => wordFXYN 0x8 x y 0x3
  | .addReg x y => wordFXYN 0x8 x y 0x4
  | .sub x y => wordFXYN 0x8 x y 0x5
  | .shr x y => wordFXYN 0x8 x y 0x6
  | .subn x y => wordFXYN 0x8 x y 0x7
  | .shl x y => wordFXYN 0x8 x y 0xE
  | .sneReg x y => wordFXYN 0x9 x y 0x0
  | .ldI nnn => wordFNNN 0xA nnn
  | .jpV0 nnn => wordFNNN 0xB nnn
  | .rnd x kk => wordFXKK 0xC x kk
  | .drw x y n => wordFXYN 0xD x y n
  | .skp x => wordFXKK 0xE x 0x9E
  | .sknp x => wordFXKK 0xE x 0xA1
  | .ldVxDt x => wordFXKK 0xF x 0x07
  | .ldVxK x => wordFXKK 0xF x 0x0A
  | .ldDtVx x => wordFXKK 0xF x 0x15
  | .ldStVx x => wordFXKK 0xF x 0x18
  | .addI x => wordFXKK 0xF x 0x1E
  | .ldF x => wordFXKK 0xF x 0x29
  | .ldB x => wordFXKK 0xF x 0x33
  | .storeRegs x => wordFXKK 0xF x 0x55
  | .loadRegs x => wordFXKK 0xF x 0x65

/-- The two bytes of a word in memory, high byte first (20_memory.md R52). -/
def bytesOfWord (op : Word) : List Byte := [op.extractLsb' 8 8, op.extractLsb' 0 8]

/-- The instruction the decoder reads from an instruction whose bits, as spec/opcode_table.json numbers them, are `w`: one
16-bit word, laid out high byte first; bits from `nbits` up are 0. -/
def decodeTableWord (nbits w : Nat) : Option Instr :=
  match decodeBytes (bytesOfWord (BitVec.ofNat 16 (w % 2 ^ nbits))) with
  | .ok (i, _) => some i
  | .error _ => none

/-! ## The rows of the table (R72): each instruction's `match` and `mask` -/

/-- The mask of an instruction's row: the bits the encoding fixes. -/
def Instr.rowMask : Instr → Word
  | .cls | .ret => 0xFFFF
  | .seReg _ _ | .ldReg _ _ | .orReg _ _ | .andReg _ _ | .xorReg _ _ | .addReg _ _ | .sub _ _ | .shr _ _ | .subn _ _
  | .shl _ _ | .sneReg _ _ => 0xF00F
  | .skp _ | .sknp _ | .ldVxDt _ | .ldVxK _ | .ldDtVx _ | .ldStVx _ | .addI _ | .ldF _ | .ldB _ | .storeRegs _
  | .loadRegs _ => 0xF0FF
  | .sys _ | .jp _ | .call _ | .seImm _ _ | .sneImm _ _ | .ldImm _ _ | .addImm _ _ | .ldI _ | .jpV0 _ | .rnd _ _
  | .drw _ _ _ => 0xF000

/-- The match of an instruction's row: the values of the bits the encoding fixes. -/
def Instr.rowMatch : Instr → Word
  | .sys _ => 0x0000
  | .cls => 0x00E0
  | .ret => 0x00EE
  | .jp _ => 0x1000
  | .call _ => 0x2000
  | .seImm _ _ => 0x3000
  | .sneImm _ _ => 0x4000
  | .seReg _ _ => 0x5000
  | .ldImm _ _ => 0x6000
  | .addImm _ _ => 0x7000
  | .ldReg _ _ => 0x8000
  | .orReg _ _ => 0x8001
  | .andReg _ _ => 0x8002
  | .xorReg _ _ => 0x8003
  | .addReg _ _ => 0x8004
  | .sub _ _ => 0x8005
  | .shr _ _ => 0x8006
  | .subn _ _ => 0x8007
  | .shl _ _ => 0x800E
  | .sneReg _ _ => 0x9000
  | .ldI _ => 0xA000
  | .jpV0 _ => 0xB000
  | .rnd _ _ => 0xC000
  | .drw _ _ _ => 0xD000
  | .skp _ => 0xE09E
  | .sknp _ => 0xE0A1
  | .ldVxDt _ => 0xF007
  | .ldVxK _ => 0xF00A
  | .ldDtVx _ => 0xF015
  | .ldStVx _ => 0xF018
  | .addI _ => 0xF01E
  | .ldF _ => 0xF029
  | .ldB _ => 0xF033
  | .storeRegs _ => 0xF055
  | .loadRegs _ => 0xF065

end Sys2Proof
end

