-- ==== Sys2Proof/Config.lean ====
section
/-! DEFINITION. What is fixed for the machine (spec/00_scope.md R7) and its one free value (R8). The parameter FONT
is a named argument of the operations that read it; its type and its default stand in Machine/Font.lean. -/

namespace Sys2Proof.Config

/-- MEM_SIZE (R7): 4096 bytes; every address is reduced modulo this (20_memory.md R51). -/
abbrev memSize : Nat := 4096

/-- PROG_BASE (R7): where LOAD copies the ROM and where pc starts (70_reset_and_hazards.md R241). -/
abbrev progBase : Nat := 0x200

/-- ROM_MAX (R7): the longest ROM that LOAD accepts (70_reset_and_hazards.md R240). -/
abbrev romMax : Nat := 3584

/-- DISPLAY (R7): the screen's columns. -/
abbrev columns : Nat := 64

/-- DISPLAY (R7): the screen's rows. -/
abbrev rows : Nat := 32

/-- The random byte of CXKK, a FREE VALUE (40_cycle.md R97): the n-th byte drawn is `rnd n`, and nothing constrains it.
DESIGN CHOICE, log entry 1: the spec makes it an input of STEP; `Machine.step` has no input, so it is read here. -/
opaque rnd : Nat → Byte

end Sys2Proof.Config
end

