-- ==== Sys2Proof/Machine/State.lean ====
section
/-! DEFINITION. The state of the core (spec/10_state.md), as plain data, its value at reset, and the reasons a step can
stop. The operations on it are in Machine/Ops.lean. -/

namespace Sys2Proof.Machine

/-- The reasons a step can fault. There are none: "no opcode execution ever signals a recoverable error", and no
instruction, operand value or address traps, faults or halts (60_exceptions.md R200). DEDUCED, log entry 11; safe. -/
inductive Fault where
  deriving DecidableEq, Repr

/-- The reasons a step can be refused. -/
inductive Refusal where
  /-- An instruction that has no meaning in this model, by its mnemonic; raised by `exec`'s arms only, and by none now. Safe. -/
  | notModelled (mnemonic : String)
  deriving DecidableEq, Repr

/-- The quirk register Q (10_state.md R30): five independent one-bit fields. -/
structure Quirks where
  /-- Bit 0: the logic operations clear VF. -/
  vfReset : Bool
  /-- Bit 1: the shifts shift V[X] in place. -/
  shifting : Bool
  /-- Bit 2: BNNN adds V[X] and not V[0]. -/
  jumping : Bool
  /-- Bit 3: DXYN drops pixels beyond the right and bottom edges and does not wrap them. -/
  clipping : Bool
  /-- Bit 4: FX55 and FX65 advance I. -/
  memoryIncrement : Bool
  deriving DecidableEq, Repr

/-- Q before the host first writes it: 0b11000 (10_state.md R31, the spec's decision D4; log entry 7). -/
def Quirks.default : Quirks :=
  { vfReset := false, shifting := false, jumping := false, clipping := true, memoryIncrement := true }

/-- Memory: the (address, byte) pairs that differ from the reset contents, addresses rising (log entry 5). The canonical
form is `Memory.wf`, in Machine/Memory.lean. -/
abbrev Memory := List Host.Cell

/-- The display buffer (10_state.md R27): rows from the top, each of columns from the left; `true` is a lit pixel. -/
abbrev Display := Vector (Vector Bool Config.columns) Config.rows

/-- A display with every pixel 0. -/
def Display.clear : Display := Vector.replicate Config.rows (Vector.replicate Config.columns false)

/-- Everything the spec gives the machine (10_state.md R20 to R32), and the model's own `draws`. -/
structure State where
  /-- The 4096-byte memory (20_memory.md R50). -/
  mem : Memory
  /-- V[0] to V[15] (R20); V[15] is VF (R21). -/
  v : Vector Byte 16
  /-- The index register I (R22). -/
  i : Word
  /-- The program counter (R23). -/
  pc : Word
  /-- The call stack's entries (R24). -/
  stack : Vector Word 16
  /-- The stack pointer, 4 bits: its arithmetic is modulo 16 (R25). -/
  sp : Fin 16
  /-- The delay timer DT (R26). -/
  dt : Byte
  /-- The sound timer ST (R26). -/
  st : Byte
  /-- The display buffer (R27). -/
  disp : Display
  /-- The keypad flags; `true` is pressed (R28). -/
  keys : Vector Bool 16
  /-- The pending-input latch: the register that a key release will write (R29). -/
  latch : Option Reg
  /-- The quirk register (R30). -/
  q : Quirks
  /-- THE MODEL'S OWN: how many random bytes CXKK has taken (log entry 1). -/
  draws : Nat
  deriving DecidableEq, Repr

/-- The state before the first LOAD: that of LOAD with an empty ROM, with Q at its default (70_reset_and_hazards.md R247,
10_state.md R33) and the parameter FONT at its default; `State.powerOn` gives it for any FONT. Memory lists nothing: every
address reads as its reset byte. -/
def State.reset : State :=
  { mem := []
    v := Vector.replicate 16 0
    i := 0
    pc := BitVec.ofNat 16 Config.progBase
    stack := Vector.replicate 16 0
    sp := 0
    dt := 0
    st := 0
    disp := Display.clear
    keys := Vector.replicate 16 false
    latch := none
    q := Quirks.default
    draws := 0 }

/-- What an instruction answers. -/
abbrev Result := Host.Outcome State Fault Refusal

end Sys2Proof.Machine
end

