-- ==== Sys2Proof/Machine/Memory.lean ====
section
/-! DEFINITION. The memory array (spec/20_memory.md): what an address reads as, what a write leaves, and the canonical form
of the list that holds it (log entry 5). Addresses here are below 4096; Machine/Ops.lean reduces them. -/

namespace Sys2Proof.Machine

/-- What an address that no cell lists reads as: the contents that LOAD of an empty ROM leaves with the default FONT, which
stands at 0x000-0x04F, and 0x00 elsewhere (70_reset_and_hazards.md R241). The bytes of another FONT are listed. -/
def Memory.unlisted (a : Nat) : Byte := defaultFontBytes.getD a 0

/-- The byte at an address. -/
def Memory.read : Memory → Nat → Byte
  | [], a => Memory.unlisted a
  | (b, w) :: m, a => if b = a then w else Memory.read m a

/-- What the list holds for a byte: nothing where the byte is what an unlisted address reads as. -/
def Memory.cell (a : Nat) (v : Byte) : Memory :=
  if v = Memory.unlisted a then [] else [(a, v)]

/-- Memory with one byte written. -/
def Memory.write : Memory → Nat → Byte → Memory
  | [], a, v => Memory.cell a v
  | (b, w) :: m, a, v =>
    if a < b then Memory.cell a v ++ (b, w) :: m
    else if a = b then Memory.cell a v ++ m
    else (b, w) :: Memory.write m a v

/-- The canonical form from an address up: addresses rise strictly, lie below 4096, and no cell holds what an unlisted
address reads as. -/
def Memory.wfFrom (lo : Nat) : Memory → Bool
  | [] => true
  | (a, v) :: m => decide (lo ≤ a) && decide (a < Config.memSize) && v != Memory.unlisted a && Memory.wfFrom (a + 1) m

/-- The canonical form: equal memories are equal lists. -/
def Memory.wf (m : Memory) : Bool := Memory.wfFrom 0 m

end Sys2Proof.Machine
end

