-- ==== Sys2Proof/Machine/Ops.lean ====
section
/-! DEFINITION. The named operations over the state: one home for every read and write of a register, of memory, of the
stack, of the screen and of the pc. There is no operation that takes an exception and none that returns from one: the
block has no traps (spec/60_exceptions.md R200, R204, R205). -/

namespace Sys2Proof.Machine

/-! ## Registers -/

/-- V[r] (10_state.md R20). -/
def State.reg (s : State) (r : Reg) : Byte := s.v[r]

/-- V[r] <- b. -/
def State.setReg (s : State) (r : Reg) (b : Byte) : State := { s with v := s.v.set r b }

/-- V[15] <- 1 or 0 (10_state.md R21, 00_scope.md R10). -/
def State.setFlag (s : State) (flag : Bool) : State := s.setReg VF (if flag then 1 else 0)

/-- I <- w (10_state.md R22). -/
def State.setI (s : State) (w : Word) : State := { s with i := w }

/-- DT <- b (10_state.md R26). -/
def State.setDt (s : State) (b : Byte) : State := { s with dt := b }

/-- ST <- b (10_state.md R26). -/
def State.setSt (s : State) (b : Byte) : State := { s with st := b }

/-- latch <- l (10_state.md R29). -/
def State.setLatch (s : State) (l : Option Reg) : State := { s with latch := l }

/-- key[k] (10_state.md R28). -/
def State.key (s : State) (k : Fin 16) : Bool := s.keys[k]

/-- key[k] <- pressed; only the host's KEY writes a key flag. -/
def State.setKey (s : State) (k : Fin 16) (pressed : Bool) : State := { s with keys := s.keys.set k pressed }

/-- Q <- q; only the host's SET_QUIRKS writes it (10_state.md R30). -/
def State.setQ (s : State) (q : Quirks) : State := { s with q := q }

/-! ## The program counter (40_cycle.md R94, 00_scope.md R14) -/

/-- pc <- w. -/
def State.setPc (s : State) (w : Word) : State := { s with pc := w }

/-- `pc_next`, `(pc + 2) mod 2^16`. -/
def State.pcNext (s : State) : Word := s.pc + 2

/-- `pc_skip`, `(pc + 4) mod 2^16`. -/
def State.pcSkip (s : State) : Word := s.pc + 4

/-- pc <- pc_next: the end of every instruction that is no jump, call, return or skip. -/
def State.advance (s : State) : State := s.setPc s.pcNext

/-- The end of a skip: pc_skip when the condition holds, else pc_next. -/
def State.skipIf (s : State) (cond : Bool) : State := s.setPc (if cond then s.pcSkip else s.pcNext)

/-! ## Memory (00_scope.md R12, 20_memory.md R51) -/

/-- The cell an address selects: the address modulo 4096 (20_memory.md R51). -/
def memIndex (a : Word) : Nat := a.toNat % Config.memSize

/-- MemRead(a, 1). -/
def State.memRead (s : State) (a : Word) : Byte := Memory.read s.mem (memIndex a)

/-- MemWrite(a, 1, b). -/
def State.memWrite (s : State) (a : Word) (b : Byte) : State := { s with mem := Memory.write s.mem (memIndex a) b }

/-- MemWrite of each byte of a list, in order, at a, a + 1, … (20_memory.md R54). -/
def State.memWriteList (s : State) (a : Word) : List Byte → State
  | [] => s
  | b :: bs => State.memWriteList (s.memWrite a b) (a + 1) bs

/-- The FONT installed at 0x000-0x04F (70_reset_and_hazards.md R241). -/
def State.installFont (s : State) (font : Font) : State := s.memWriteList 0 font.toList

/-! ## The call stack (10_state.md R25) -/

/-- stack[j]. -/
def State.stackEntry (s : State) (j : Fin 16) : Word := s.stack[j]

/-- Push(w): sp <- (sp + 1) mod 16, then stack[sp] <- w. -/
def State.push (s : State) (w : Word) : State :=
  { s with sp := s.sp + 1, stack := s.stack.set (s.sp + 1 : Fin 16) w }

/-- The value Pop() returns: the entry at sp. -/
def State.top (s : State) : Word := s.stackEntry s.sp

/-- What Pop() leaves: sp <- (sp - 1) mod 16; the entry keeps its value. -/
def State.pop (s : State) : State := { s with sp := s.sp - 1 }

/-! ## The display (10_state.md R27) -/

/-- disp(x, y): column x, row y. -/
def Display.pixel (d : Display) (x : Fin 64) (y : Fin 32) : Bool := d[y][x]

/-- disp(x, y) <- disp(x, y) ^ 1. -/
def Display.toggle (d : Display) (x : Fin 64) (y : Fin 32) : Display := d.set y (d[y].set x (!d.pixel x y))

/-- The display written as a whole. -/
def State.setDisp (s : State) (d : Display) : State := { s with disp := d }

/-! ## The random byte (40_cycle.md R97) -/

/-- The free value of the next byte CXKK takes when the step has no input (log entry 1). -/
def State.freeByte (s : State) : Byte := Config.rnd s.draws

/-- One more byte has been taken. -/
def State.countDraw (s : State) : State := { s with draws := s.draws + 1 }

/-! ## Fetch (40_cycle.md R92) and the no-operation of an unrecognised word (30_encoding.md R74) -/

/-- The word at pc: the byte at pc is the high byte, the byte at pc + 1 the low one, each address modulo 4096. -/
def State.fetch (s : State) : Word := wordOfBytes (s.memRead s.pc) (s.memRead (s.pc + 1))

/-- An unrecognised word: pc <- pc_next, and nothing else changes (R74). -/
def execUnrecognised (s : State) : Result := .next s.advance

/-- `s` with a word stored where the next fetch reads it, and the latch clear so that the next step fetches. -/
def State.placeWord (s : State) (w : Word) : State :=
  (s.setLatch none).memWriteList s.pc (bytesOfWord w)

end Sys2Proof.Machine
end

