-- ==== Sys2Proof/Machine/Flags.lean ====
section
/-! DEFINITION. Every flag computation of the spec: each from the operands and the full-width result, before truncation
(spec/42_alu.md R120). -/

namespace Sys2Proof.Machine

/-- The carry of a + b: the nine-bit sum exceeds 255 (42_alu.md R127). -/
def carry (a b : Byte) : Bool := decide (a.toNat + b.toNat > 255)

/-- No borrow in a - b: the minuend is at least the subtrahend (42_alu.md R128, R130). -/
def noBorrow (a b : Byte) : Bool := decide (a.toNat ≥ b.toNat)

/-- The bit a right shift moves out: bit 0 (42_alu.md R129). -/
def shiftedOutRight (v : Byte) : Bool := v.getLsbD 0

/-- The bit a left shift moves out: bit 7 (42_alu.md R131). -/
def shiftedOutLeft (v : Byte) : Bool := v.getLsbD 7

/-- What the logic operations do to VF: VF <- 0 when VFReset = 1, else nothing (42_alu.md R124). -/
def State.logicFlag (s : State) : State := if s.q.vfReset then s.setFlag false else s

end Sys2Proof.Machine
end

