-- ==== Sys2Proof/Machine/Operands.lean ====
section
/-! DEFINITION. The operand forms: how the fields of a word and the quirk register choose a source, an index or an address
(spec/30_encoding.md R71; the quirks of 10_state.md R30). Every immediate is zero-extended. -/

namespace Sys2Proof.Machine

/-- `zext_16(NNN)` (R71). -/
def addrWord (nnn : Addr) : Word := nnn.setWidth 16

/-- `zext_16(b)` for a register's value. -/
def byteWord (b : Byte) : Word := b.setWidth 16

/-- `NNN[11:8]`, the register index in the top nibble of BNNN's address (R71). -/
def topNibble (nnn : Addr) : Reg := (nnn.extractLsb' 8 4).toFin

/-- The low nibble of a register's value, `V[X] & 0x0F`: a key code or a hexadecimal digit. -/
def lowNibble (b : Byte) : Fin 16 := (b.extractLsb' 0 4).toFin

/-- BNNN's base (41_control_flow.md R108): V[X] when Jumping = 1, else V[0]. -/
def State.jumpBase (s : State) (nnn : Addr) : Byte :=
  if s.q.jumping then s.reg (topNibble nnn) else s.reg 0

/-- The shifts' source (42_alu.md R129, R131): V[X] when Shifting = 1, else V[Y]. -/
def State.shiftSource (s : State) (x y : Reg) : Byte :=
  if s.q.shifting then s.reg x else s.reg y

/-- The glyph of a register's low nibble: `0x000 + 5 * (V[X] & 0x0F)` (43_index_memory.md R142). -/
def glyphAddress (b : Byte) : Word := BitVec.ofNat 16 (5 * (lowNibble b).val)

/-- The hundreds, tens and units digits of a value, in that order (43_index_memory.md R143). -/
def bcdDigits (b : Byte) : List Byte :=
  [BitVec.ofNat 8 (b.toNat / 100), BitVec.ofNat 8 (b.toNat / 10 % 10), BitVec.ofNat 8 (b.toNat % 10)]

/-- V[0] to V[X], in order (43_index_memory.md R144). -/
def State.regsUpTo (s : State) (x : Reg) : List Byte := s.v.toList.take (x.val + 1)

/-- The address of the i-th byte of a block at I: I + i (43_index_memory.md R144, R145). -/
def State.blockAddress (s : State) (i : Nat) : Word := s.i + BitVec.ofNat 16 i

/-- I after the block copy of V[0] to V[X] (R144, R145): I + X + 1 when MemoryIncrement = 1, else I. -/
def State.blockNextI (s : State) (x : Reg) : Word :=
  if s.q.memoryIncrement then s.i + BitVec.ofNat 16 (x.val + 1) else s.i

end Sys2Proof.Machine
end

