-- ==== Sys2Proof/Machine/Alu.lean ====
section
/-! DEFINITION. The register and arithmetic instructions (spec/42_alu.md R121 to R132). Each reads its operands from the
state it starts in, writes V[X], then VF where it has a flag, then pc (R120). -/

namespace Sys2Proof.Machine

/-- LD Vx, KK (R121). -/
def execLdImm (x : Reg) (kk : Byte) (s : State) : Result := .next (s.setReg x kk).advance

/-- ADD Vx, KK (R122): modulo 2^8, no flag. -/
def execAddImm (x : Reg) (kk : Byte) (s : State) : Result := .next (s.setReg x (s.reg x + kk)).advance

/-- LD Vx, Vy (R123). -/
def execLdReg (x y : Reg) (s : State) : Result := .next (s.setReg x (s.reg y)).advance

/-- OR Vx, Vy (R124). -/
def execOrReg (x y : Reg) (s : State) : Result := .next (s.setReg x (s.reg x ||| s.reg y)).logicFlag.advance

/-- AND Vx, Vy (R125). -/
def execAndReg (x y : Reg) (s : State) : Result := .next (s.setReg x (s.reg x &&& s.reg y)).logicFlag.advance

/-- XOR Vx, Vy (R126). -/
def execXorReg (x y : Reg) (s : State) : Result := .next (s.setReg x (s.reg x ^^^ s.reg y)).logicFlag.advance

/-- ADD Vx, Vy (R127): VF is the carry. -/
def execAddReg (x y : Reg) (s : State) : Result :=
  .next ((s.setReg x (s.reg x + s.reg y)).setFlag (carry (s.reg x) (s.reg y))).advance

/-- SUB Vx, Vy (R128): V[X] - V[Y], VF is the absence of a borrow. -/
def execSub (x y : Reg) (s : State) : Result :=
  .next ((s.setReg x (s.reg x - s.reg y)).setFlag (noBorrow (s.reg x) (s.reg y))).advance

/-- SHR Vx, Vy (R129): VF is the bit shifted out. -/
def execShr (x y : Reg) (s : State) : Result :=
  .next ((s.setReg x (s.shiftSource x y >>> 1)).setFlag (shiftedOutRight (s.shiftSource x y))).advance

/-- SUBN Vx, Vy (R130): V[Y] - V[X], VF is the absence of a borrow. -/
def execSubn (x y : Reg) (s : State) : Result :=
  .next ((s.setReg x (s.reg y - s.reg x)).setFlag (noBorrow (s.reg y) (s.reg x))).advance

/-- SHL Vx, Vy (R131): VF is the bit shifted out. -/
def execShl (x y : Reg) (s : State) : Result :=
  .next ((s.setReg x (s.shiftSource x y <<< 1)).setFlag (shiftedOutLeft (s.shiftSource x y))).advance

/-- RND Vx, KK (R132) on a given random byte, the input `rnd` of STEP (40_cycle.md R97). -/
def execRndWith (rnd : Byte) (x : Reg) (kk : Byte) (s : State) : Result :=
  .next (s.setReg x (rnd &&& kk)).countDraw.advance

/-- RND Vx, KK (R132) on the free byte of this draw (log entry 1). -/
def execRnd (x : Reg) (kk : Byte) (s : State) : Result := execRndWith s.freeByte x kk s

end Sys2Proof.Machine
end

