-- ==== Sys2Proof/Machine/ControlFlow.lean ====
section
/-! DEFINITION. The control-flow instructions (spec/41_control_flow.md R100 to R108). -/

namespace Sys2Proof.Machine

/-- SYS NNN (R100): a no-operation, pc <- pc_next. -/
def execSys (_nnn : Addr) (s : State) : Result := .next s.advance

/-- RET (R101): pops t and goes on at t + 2, after the CALL at t (90_conflicts.md C1). -/
def execRet (s : State) : Result := .next (s.pop.setPc (s.top + 2))

/-- JP NNN (R102). -/
def execJp (nnn : Addr) (s : State) : Result := .next (s.setPc (addrWord nnn))

/-- CALL NNN (R103): pushes the CALL's own address. -/
def execCall (nnn : Addr) (s : State) : Result := .next ((s.push s.pc).setPc (addrWord nnn))

/-- SE Vx, KK (R104). -/
def execSeImm (x : Reg) (kk : Byte) (s : State) : Result := .next (s.skipIf (s.reg x == kk))

/-- SNE Vx, KK (R105). -/
def execSneImm (x : Reg) (kk : Byte) (s : State) : Result := .next (s.skipIf (s.reg x != kk))

/-- SE Vx, Vy (R106). -/
def execSeReg (x y : Reg) (s : State) : Result := .next (s.skipIf (s.reg x == s.reg y))

/-- SNE Vx, Vy (R107). -/
def execSneReg (x y : Reg) (s : State) : Result := .next (s.skipIf (s.reg x != s.reg y))

/-- JP V0, NNN (R108): pc <- (base + NNN) mod 2^16, the base V[X] when Jumping = 1 and V[0] otherwise. -/
def execJpV0 (nnn : Addr) (s : State) : Result :=
  .next (s.setPc (byteWord (s.jumpBase nnn) + addrWord nnn))

end Sys2Proof.Machine
end

