-- ==== Sys2Proof/Machine/IndexMemory.lean ====
section
/-! DEFINITION. The index register and memory instructions (spec/43_index_memory.md R140 to R145). -/

namespace Sys2Proof.Machine

/-- LD I, NNN (R140). -/
def execLdI (nnn : Addr) (s : State) : Result := .next (s.setI (addrWord nnn)).advance

/-- ADD I, Vx (R141): modulo 2^16, no flag. -/
def execAddI (x : Reg) (s : State) : Result := .next (s.setI (s.i + byteWord (s.reg x))).advance

/-- LD F, Vx (R142). -/
def execLdF (x : Reg) (s : State) : Result := .next (s.setI (glyphAddress (s.reg x))).advance

/-- LD B, Vx (R143): hundreds, tens and units at I, I + 1, I + 2. -/
def execLdB (x : Reg) (s : State) : Result := .next (s.memWriteList s.i (bcdDigits (s.reg x))).advance

/-- LD [I], Vx (R144): V[0] to V[X] to memory from I, then I as MemoryIncrement says. -/
def execStoreRegs (x : Reg) (s : State) : Result :=
  .next ((s.memWriteList s.i (s.regsUpTo x)).setI (s.blockNextI x)).advance

/-- V[0] to V[X] from memory at I to I + X, the other registers as they are (R145). Reads have no side effect
(20_memory.md R55), so the loop's order does not show. -/
def State.loadRegsUpTo (s : State) (x : Reg) : State :=
  { s with v := Vector.ofFn fun j : Fin 16 => if j.val ≤ x.val then s.memRead (s.blockAddress j.val) else s.reg j }

/-- LD Vx, [I] (R145): memory from I to V[0] to V[X], then I as MemoryIncrement says. -/
def execLoadRegs (x : Reg) (s : State) : Result :=
  .next ((s.loadRegsUpTo x).setI (s.blockNextI x)).advance

end Sys2Proof.Machine
end

