-- ==== Sys2Proof/Machine/KeypadTimers.lean ====
section
/-! DEFINITION. The keypad and timer instructions (spec/45_keypad_timers.md R180 to R185). -/

namespace Sys2Proof.Machine

/-- SKP Vx (R180): skips when the key of V[X]'s low nibble is pressed. -/
def execSkp (x : Reg) (s : State) : Result := .next (s.skipIf (s.key (lowNibble (s.reg x))))

/-- SKNP Vx (R181): skips when that key is not pressed. -/
def execSknp (x : Reg) (s : State) : Result := .next (s.skipIf (!s.key (lowNibble (s.reg x))))

/-- LD Vx, DT (R182). -/
def execLdVxDt (x : Reg) (s : State) : Result := .next (s.setReg x s.dt).advance

/-- LD Vx, K (R183): latches X and advances; the steps after it do nothing until a key release. -/
def execLdVxK (x : Reg) (s : State) : Result := .next (s.setLatch (some x)).advance

/-- LD DT, Vx (R184). -/
def execLdDtVx (x : Reg) (s : State) : Result := .next (s.setDt (s.reg x)).advance

/-- LD ST, Vx (R185). -/
def execLdStVx (x : Reg) (s : State) : Result := .next (s.setSt (s.reg x)).advance

end Sys2Proof.Machine
end

