-- ==== Sys2Proof/Machine/Screen.lean ====
section
/-! DEFINITION. The display instructions CLS and DRW (spec/44_display.md R160 to R163). -/

namespace Sys2Proof.Machine

/-- CLS (R161). -/
def execCls (s : State) : Result := .next (s.setDisp Display.clear).advance

/-- A draw under way: the display so far, and whether a pixel has gone from 1 to 0. -/
structure Drawing where
  /-- The display so far. -/
  disp : Display
  /-- The collision flag so far: cleared at the start and only ever set (R162). -/
  hit : Bool
  deriving DecidableEq, Repr

/-- One set bit of a sprite at px, py (R162): with Clipping a pixel off the screen is skipped and the draw goes on (R163),
without it the coordinates wrap; then the pixel is toggled, and the flag set if it was 1. -/
def Drawing.plot (clipping : Bool) (px py : Nat) (d : Drawing) : Drawing :=
  if clipping && (decide (px ≥ Config.columns) || decide (py ≥ Config.rows)) then d
  else
    let x : Fin 64 := Fin.ofNat 64 px
    let y : Fin 32 := Fin.ofNat 32 py
    { disp := d.disp.toggle x y, hit := d.hit || d.disp.pixel x y }

/-- One row of a sprite from px, py: column c is bit 7 - c of the byte (R160), columns from the left. -/
def Drawing.row (clipping : Bool) (px py : Nat) (b : Byte) (d : Drawing) : Drawing :=
  (List.range 8).foldl (fun d c => if b.getLsbD (7 - c) then d.plot clipping (px + c) py else d) d

/-- A sprite of n rows from x0, y0: row r is the byte at I + r (R160), rows from the top. -/
def State.drawSprite (s : State) (x0 y0 n : Nat) : Drawing :=
  (List.range n).foldl (fun d r => d.row s.q.clipping x0 (y0 + r) (s.memRead (s.blockAddress r)))
    { disp := s.disp, hit := false }

/-- DRW's start column, `V[X] mod 64` (R162). -/
def State.startColumn (s : State) (x : Reg) : Nat := (s.reg x).toNat % Config.columns

/-- DRW's start row, `V[Y] mod 32` (R162, 90_conflicts.md C2). -/
def State.startRow (s : State) (y : Reg) : Nat := (s.reg y).toNat % Config.rows

/-- DRW Vx, Vy, N (R162): the coordinates are the registers' values before VF is cleared. The loop keeps the flag beside
the display and VF is written once after it: the instruction is atomic (40_cycle.md R96), so nothing sees VF between
(log entry 12). -/
def execDrw (x y : Reg) (n : Fin 16) (s : State) : Result :=
  let d := s.drawSprite (s.startColumn x) (s.startRow y) n.val
  .next ((s.setDisp d.disp).setFlag d.hit).advance

end Sys2Proof.Machine
end

