-- ==== Sys2Proof/Machine/Cycle.lean ====
section
/-! DEFINITION. The instruction cycle (spec/40_cycle.md R90): the latch's gate, and what a decoded word does. -/

namespace Sys2Proof.Machine

/-- An instruction on a given random byte: only CXKK reads it (40_cycle.md R97). -/
def execWith (rnd : Byte) (i : Instr) (s : State) : Result :=
  match i with
  | .rnd x kk => execRndWith rnd x kk s
  | i => exec i s

/-- What the word at pc does, given how instructions run (R93): an instruction runs, an unrecognised word is the
no-operation of 30_encoding.md R74. -/
def cycleOf (run : Instr → State → Result) (s : State) : Result :=
  match decodeWord s.fetch with
  | .ok i => run i s
  | .error _ => execUnrecognised s

/-- The latch's gate (R90): while the latch is set nothing changes. Q is read by the instruction from the state the step
starts in (R91). -/
def gatedCycle (run : Instr → State → Result) (s : State) : Result :=
  match s.latch with
  | some _ => .next s
  | none => cycleOf run s

end Sys2Proof.Machine
end

