-- ==== Sys2Proof/Machine/Step.lean ====
section
/-! DEFINITION. STEP (spec/40_cycle.md R90), and the placing of a word where it fetches. -/

namespace Sys2Proof.Machine

/-- One STEP, its random byte the free value of log entry 1. -/
def step (s : State) : Host.Outcome State Fault Refusal := gatedCycle exec s

/-- One STEP with its input `rnd` given (R90, R97). -/
def stepWith (rnd : Byte) (s : State) : Host.Outcome State Fault Refusal := gatedCycle (execWith rnd) s

/-- `s` with the instruction whose bits are `w` where step fetches next, and the latch clear, so that the next step runs it
(log entry 3). -/
def State.withFetchWord (s : State) (nbits w : Nat) : State := s.placeWord (BitVec.ofNat 16 (w % 2 ^ nbits))

end Sys2Proof.Machine
end

