-- ==== Sys2Proof/Machine/Transactions.lean ====
section
/-! DEFINITION. The host's transactions (spec/60_exceptions.md R209): LOAD, STEP, TICK, KEY, SET_QUIRKS and the three
queries, each atomic (20_memory.md R58), and a run of any list of them (log entry 2). -/

namespace Sys2Proof.Machine

/-! ## LOAD (70_reset_and_hazards.md R240 to R245) -/

/-- What LOAD answers. -/
inductive LoadAnswer where
  /-- The ROM is loaded. -/
  | ok
  /-- The ROM is longer than 3584 bytes (R244). -/
  | programTooLarge
  deriving DecidableEq, Repr

/-- The state before the first LOAD, of a core whose parameter FONT is `font` (R247); `State.reset` is that of the default
FONT. -/
def State.powerOn (font : Font := defaultFont) : State := State.reset.installFont font

/-- The reset LOAD performs (R241): everything at its reset value with FONT at 0x000, but Q, which LOAD does not change
(R245). The model's own draw counter goes on, so that a draw after a LOAD is a fresh one (log entry 1). -/
def State.loadReset (s : State) (font : Font := defaultFont) : State :=
  { State.powerOn font with q := s.q, draws := s.draws }

/-- LOAD(rom), of a core whose parameter FONT is `font` (00_scope.md R8): the reset, then the ROM's bytes from 0x200, verbatim; a ROM of more than 3584 bytes is rejected and no byte
of it is copied (R244). -/
def load (rom : List Byte) (s : State) (font : Font := defaultFont) : LoadAnswer × State :=
  if rom.length > Config.romMax then (.programTooLarge, s.loadReset font)
  else (.ok, (s.loadReset font).memWriteList (BitVec.ofNat 16 Config.progBase) rom)

/-! ## TICK (60_exceptions.md R210) -/

/-- A timer one tick later: one less, unless it is 0. -/
def timerTick (t : Byte) : Byte := if t.toNat > 0 then t - 1 else t

/-- TICK: each timer one less unless it is 0, also while the latch is set. -/
def tick (s : State) : State := (s.setDt (timerTick s.dt)).setSt (timerTick s.st)

/-! ## KEY (60_exceptions.md R212) -/

/-- What KEY answers. -/
inductive KeyAnswer where
  /-- The transition is recorded. -/
  | ok
  /-- The key code is above 15; nothing changes. -/
  | invalidKeyCode
  deriving DecidableEq, Repr

/-- A release of key k: a pending wait writes the code to its register and ends. -/
def State.resolveWait (s : State) (k : Fin 16) : State :=
  match s.latch with
  | some r => (s.setReg r (BitVec.ofNat 8 k.val)).setLatch none
  | none => s

/-- KEY(k, pressed). The port is wider than four bits, so that InvalidKeyCode can arise (log entry 8). -/
def key (k : Nat) (pressed : Bool) (s : State) : KeyAnswer × State :=
  if k > 15 then (.invalidKeyCode, s)
  else
    let s' := s.setKey (Fin.ofNat 16 k) pressed
    (.ok, if pressed then s' else s'.resolveWait (Fin.ofNat 16 k))

/-! ## SET_QUIRKS (60_exceptions.md R215) and the layout of Q (10_state.md R30) -/

/-- The five fields of Q from its five bits, bit 0 first: VFReset, Shifting, Jumping, Clipping, MemoryIncrement. -/
def quirksOfBits (b : BitVec 5) : Quirks :=
  { vfReset := b.getLsbD 0, shifting := b.getLsbD 1, jumping := b.getLsbD 2, clipping := b.getLsbD 3
    memoryIncrement := b.getLsbD 4 }

/-- The five bits of Q. -/
def Quirks.toBits (q : Quirks) : BitVec 5 :=
  BitVec.ofBool q.memoryIncrement ++ BitVec.ofBool q.clipping ++ BitVec.ofBool q.jumping ++ BitVec.ofBool q.shifting
    ++ BitVec.ofBool q.vfReset

/-- SET_QUIRKS(q): writes all five fields and nothing else. -/
def setQuirks (q : Quirks) (s : State) : State := s.setQ q

/-! ## The queries: they change no state (60_exceptions.md R209) -/

/-- READ_PIXEL(x, y) (R213); a coordinate outside the screen is refused, not answered (log entry 8). -/
def readPixel (x y : Nat) (s : State) : Option Bool :=
  if h : x < 64 ∧ y < 32 then some (s.disp.pixel ⟨x, h.1⟩ ⟨y, h.2⟩) else none

/-- AWAITING_KEY (R214). -/
def awaitingKey (s : State) : Bool := s.latch.isSome

/-- SOUND_ACTIVE (R211). -/
def soundActive (s : State) : Bool := s.st != 0

/-! ## Transactions as data -/

/-- A transaction the host issues (R209), with its inputs. -/
inductive Transaction where
  /-- LOAD of a ROM. -/
  | load (rom : List Byte)
  /-- STEP with its random byte. -/
  | step (rnd : Byte)
  /-- TICK. -/
  | tick
  /-- KEY of a code, pressed or released. -/
  | key (k : Nat) (pressed : Bool)
  /-- SET_QUIRKS. -/
  | setQuirks (q : Quirks)
  /-- READ_PIXEL at column x, row y. -/
  | readPixel (x y : Nat)
  /-- AWAITING_KEY. -/
  | awaitingKey
  /-- SOUND_ACTIVE. -/
  | soundActive
  deriving DecidableEq, Repr

/-- What a transaction answers the host. -/
inductive Answer where
  /-- No output. -/
  | done
  /-- LOAD's answer. -/
  | loaded (a : LoadAnswer)
  /-- KEY's answer. -/
  | keyed (a : KeyAnswer)
  /-- A query's bit. -/
  | bit (b : Bool)
  /-- READ_PIXEL outside the screen. -/
  | noSuchPixel
  deriving DecidableEq, Repr

/-- What a transaction issued in state `s` answers (R209), of a core whose FONT is `font`. -/
def answer (t : Transaction) (s : State) (font : Font := defaultFont) : Answer :=
  match t with
  | .load rom => .loaded (load rom s font).1
  | .step _ => .done
  | .tick => .done
  | .key k pressed => .keyed (key k pressed s).1
  | .setQuirks _ => .done
  | .readPixel x y =>
    match readPixel x y s with
    | some b => .bit b
    | none => .noSuchPixel
  | .awaitingKey => .bit (awaitingKey s)
  | .soundActive => .bit (soundActive s)

/-- The effect of a transaction on the state, of a core whose FONT is `font`; only LOAD reads it. -/
def transact (t : Transaction) (s : State) (font : Font := defaultFont) : Result :=
  match t with
  | .load rom => .next (load rom s font).2
  | .step rnd => stepWith rnd s
  | .tick => .next (tick s)
  | .key k pressed => .next (key k pressed s).2
  | .setQuirks q => .next (setQuirks q s)
  | .readPixel _ _ => .next s
  | .awaitingKey => .next s
  | .soundActive => .next s

/-- A run of the host's transactions, in the order it chooses (20_memory.md R58), of a core whose FONT is `font` throughout. -/
def runTransactions (ts : List Transaction) (s : State) (font : Font := defaultFont) : Result :=
  match ts with
  | [] => .next s
  | t :: ts =>
    match transact t s font with
    | .next s' => runTransactions ts s' font
    | .fault r => .fault r
    | .refused r => .refused r

end Sys2Proof.Machine
end

