-- ==== Sys2Proof/Safety.lean ====
section
/-! DEFINITION. The words the claims are stated in: the invariant, what it means that a part of the state is unchanged,
which parts an instruction may write (spec/10_state.md R34), and what a sprite covers (44_display.md R160 to R163).
A safe run is one whose every transaction answers a next state (60_exceptions.md R200). -/

namespace Sys2Proof.Machine

/-- The invariant: memory is in its canonical form (log entry 5). Every other field is bounded by its type. -/
def State.Inv (s : State) : Prop := Memory.wf s.mem = true

/-- A run of transactions that ends in a state: none of them faulted or was refused. -/
def SafeRun (ts : List Transaction) (s : State) (font : Font := defaultFont) : Prop :=
  ∃ t, runTransactions ts s font = .next t

/-! ## Frames -/

/-- The parts of the state a frame speaks of: those of 10_state.md R33, each register by itself, and the model's `draws`. -/
inductive StatePart where
  /-- Every byte of memory. -/
  | mem
  /-- One register V[r]; `reg 15` is VF. -/
  | reg (r : Reg)
  /-- The index register I. -/
  | i
  /-- The program counter. -/
  | pc
  /-- The sixteen stack entries. -/
  | stack
  /-- The stack pointer. -/
  | sp
  /-- The delay timer. -/
  | dt
  /-- The sound timer. -/
  | st
  /-- Every pixel of the display. -/
  | disp
  /-- Every key flag. -/
  | keys
  /-- The pending-input latch. -/
  | latch
  /-- The quirk register. -/
  | q
  /-- The model's own count of random bytes. -/
  | draws
  deriving DecidableEq, Repr

/-- A part is the same in `t` as in `s`, read through the operation that reads it. -/
def StatePart.Same (s t : State) : StatePart → Prop
  | .mem => ∀ a : Word, t.memRead a = s.memRead a
  | .reg r => t.reg r = s.reg r
  | .i => t.i = s.i
  | .pc => t.pc = s.pc
  | .stack => ∀ j : Fin 16, t.stackEntry j = s.stackEntry j
  | .sp => t.sp = s.sp
  | .dt => t.dt = s.dt
  | .st => t.st = s.st
  | .disp => ∀ (x : Fin 64) (y : Fin 32), t.disp.pixel x y = s.disp.pixel x y
  | .keys => ∀ k : Fin 16, t.key k = s.key k
  | .latch => t.latch = s.latch
  | .q => t.q = s.q
  | .draws => t.draws = s.draws

/-- Every part but those listed is the same: the frame of a change from `s` to `t`. -/
def SameBut (parts : List StatePart) (s t : State) : Prop := ∀ p, p ∉ parts → p.Same s t

/-- The parts an instruction may write: the table of 10_state.md R34, read by instruction. -/
def writtenParts : Instr → List StatePart
  | .sys _ | .jp _ | .seImm _ _ | .sneImm _ _ | .seReg _ _ | .sneReg _ _ | .jpV0 _ | .skp _ | .sknp _ => [.pc]
  | .cls => [.pc, .disp]
  | .ret => [.pc, .sp]
  | .call _ => [.pc, .sp, .stack]
  | .ldImm x _ | .addImm x _ | .ldReg x _ | .ldVxDt x => [.pc, .reg x]
  | .orReg x _ | .andReg x _ | .xorReg x _ | .addReg x _ | .sub x _ | .shr x _ | .subn x _ | .shl x _ =>
    [.pc, .reg x, .reg VF]
  | .rnd x _ => [.pc, .reg x, .draws]
  | .drw _ _ _ => [.pc, .disp, .reg VF]
  | .ldVxK _ => [.pc, .latch]
  | .ldDtVx _ => [.pc, .dt]
  | .ldStVx _ => [.pc, .st]
  | .ldI _ | .addI _ | .ldF _ => [.pc, .i]
  | .ldB _ => [.pc, .mem]
  | .storeRegs _ => [.pc, .mem, .i]
  | .loadRegs x => .pc :: .i :: (List.finRange 16).filterMap fun r => if r ≤ x then some (.reg r) else none

/-- The instructions that do not end with `pc <- pc_next` (40_cycle.md R94). -/
def writesTarget : Instr → Bool
  | .ret | .jp _ | .call _ | .seImm _ _ | .sneImm _ _ | .seReg _ _ | .sneReg _ _ | .jpV0 _ | .skp _ | .sknp _ => true
  | .sys _ | .cls | .ldImm _ _ | .addImm _ _ | .ldReg _ _ | .orReg _ _ | .andReg _ _ | .xorReg _ _ | .addReg _ _
  | .sub _ _ | .shr _ _ | .subn _ _ | .shl _ _ | .ldI _ | .rnd _ _ | .drw _ _ _ | .ldVxDt _ | .ldVxK _ | .ldDtVx _
  | .ldStVx _ | .addI _ | .ldF _ | .ldB _ | .storeRegs _ | .loadRegs _ => false

/-! ## Shapes of completion: the instruction answers a next state, with these values and this frame -/

/-- `i` from `s` completes and changes nothing but pc, to `w`. -/
def OnlySetsPc (i : Instr) (s : State) (w : Word) : Prop :=
  ∃ t, exec i s = .next t ∧ t.pc = w ∧ SameBut [.pc] s t

/-- `i` from `s` completes with V[x] = `b` and pc advanced by 2, and changes nothing else. -/
def WritesRegister (i : Instr) (s : State) (x : Reg) (b : Byte) : Prop :=
  ∃ t, exec i s = .next t ∧ t.reg x = b ∧ t.pc = s.pc + 2 ∧ SameBut [.pc, .reg x] s t

/-- `i` from `s` completes with V[x] = `b`, then VF = `flag`, and pc advanced by 2, and changes nothing else; where x is
VF the flag is what it ends with (42_alu.md R120). -/
def WritesRegisterAndFlag (i : Instr) (s : State) (x : Reg) (b flag : Byte) : Prop :=
  ∃ t, exec i s = .next t ∧ (x ≠ VF → t.reg x = b) ∧ t.reg VF = flag ∧ t.pc = s.pc + 2 ∧
    SameBut [.pc, .reg x, .reg VF] s t

/-- `i` from `s` completes with I = `n` as a number and pc advanced by 2, and changes nothing else. -/
def WritesI (i : Instr) (s : State) (n : Nat) : Prop :=
  ∃ t, exec i s = .next t ∧ t.i.toNat = n ∧ t.pc = s.pc + 2 ∧ SameBut [.pc, .i] s t

/-! ## What LOAD leaves (10_state.md R33) -/

/-- Every part but memory, Q and `draws` at the value of R33. -/
structure ResetValues (t : State) : Prop where
  /-- V[0] to V[15] are 0. -/
  regs : ∀ r : Reg, t.reg r = 0
  /-- I is 0. -/
  i : t.i = 0
  /-- pc is 0x200. -/
  pc : t.pc = 0x200
  /-- Every stack entry is 0. -/
  stack : ∀ j : Fin 16, t.stackEntry j = 0
  /-- The stack pointer is 0. -/
  sp : t.sp = 0
  /-- The delay timer is 0. -/
  dt : t.dt = 0
  /-- The sound timer is 0. -/
  st : t.st = 0
  /-- Every pixel is 0. -/
  disp : ∀ (x : Fin 64) (y : Fin 32), t.disp.pixel x y = false
  /-- Every key flag is 0. -/
  keys : ∀ k : Fin 16, t.key k = false
  /-- No wait is pending. -/
  latch : t.latch = none

/-- The byte LOAD leaves where it copies no ROM byte: FONT below 0x050, 0x00 elsewhere (70_reset_and_hazards.md R241). -/
def clearedByte (font : Font) (a : Word) : Byte :=
  if h : a.toNat % 4096 < 80 then font[a.toNat % 4096] else 0

/-! ## Sprites -/

/-- A sprite of `n` rows at I, drawn from column `x0` and row `y0`, has a set bit that falls on the pixel `px`, `py`
(44_display.md R160, R162): exactly there with Clipping = 1, modulo the screen with Clipping = 0 (R163). -/
def SpriteCovers (s : State) (x0 y0 n : Nat) (px : Fin 64) (py : Fin 32) : Prop :=
  ∃ r c : Nat, r < n ∧ c < 8 ∧ (s.memRead (s.i + BitVec.ofNat 16 r)).getLsbD (7 - c) = true ∧
    if s.q.clipping then px.val = x0 + c ∧ py.val = y0 + r
    else px.val = (x0 + c) % 64 ∧ py.val = (y0 + r) % 32

/-! ## What a program cannot see (10_state.md R35) -/

/-- Two addresses that select the same byte: equal modulo 4096. -/
def SameAddress (a b : Word) : Prop := a.toNat % 4096 = b.toNat % 4096

/-- Two states that differ at most in bits 12 to 15 of I, of pc and of the stack entries. -/
structure SameToAProgram (s t : State) : Prop where
  /-- The memories are equal. -/
  mem : t.mem = s.mem
  /-- The registers are equal. -/
  v : t.v = s.v
  /-- I selects the same byte. -/
  i : SameAddress t.i s.i
  /-- pc selects the same byte. -/
  pc : SameAddress t.pc s.pc
  /-- Every stack entry selects the same byte. -/
  stack : ∀ j : Fin 16, SameAddress (t.stackEntry j) (s.stackEntry j)
  /-- Everything else is equal. -/
  rest : t.sp = s.sp ∧ t.dt = s.dt ∧ t.st = s.st ∧ t.disp = s.disp ∧ t.keys = s.keys ∧ t.latch = s.latch ∧ t.q = s.q ∧
    t.draws = s.draws

/-! ## Runs of calls and returns -/

/-- CALL to each target in turn, then as many RETs, each from the state the one before it leaves (41_control_flow.md R101,
R103). -/
def callsThenReturns : List Addr → State → Result
  | [], s => .next s
  | nnn :: rest, s =>
    match exec (.call nnn) s with
    | .next t =>
      match callsThenReturns rest t with
      | .next u => exec .ret u
      | .fault r => .fault r
      | .refused r => .refused r
    | .fault r => .fault r
    | .refused r => .refused r

end Sys2Proof.Machine
end

