-- ==== Sys2Proof/Certificates/Slice0/Obligations.lean ====
section
/-! DEFINITION. The statements about the machine, each named for what it states. `derived` in OBLIGATIONS.json marks those
that rest on a point the spec marks as its own decision, as general knowledge or as derived; their docstrings name it. -/

open Sys2Proof Sys2Proof.Machine

/-! ## Encoding -/

/-- Words of every family, written out in spec/95_test_vectors.md, decode to their instructions. -/
def Obligations.WorkedWordsDecode : Prop :=
  decodeWord 0x0123 = .ok (.sys 0x123) ∧ decodeWord 0x00E0 = .ok .cls ∧ decodeWord 0x00EE = .ok .ret ∧
  decodeWord 0x1ABC = .ok (.jp 0xABC) ∧ decodeWord 0x220C = .ok (.call 0x20C) ∧
  decodeWord 0x3306 = .ok (.seImm 3 0x06) ∧ decodeWord 0x4001 = .ok (.sneImm 0 0x01) ∧
  decodeWord 0x5120 = .ok (.seReg 1 2) ∧ decodeWord 0x6A2F = .ok (.ldImm 10 0x2F) ∧
  decodeWord 0x7101 = .ok (.addImm 1 0x01) ∧ decodeWord 0x80F4 = .ok (.addReg 0 15) ∧
  decodeWord 0x801E = .ok (.shl 0 1) ∧ decodeWord 0x9120 = .ok (.sneReg 1 2) ∧ decodeWord 0xA300 = .ok (.ldI 0x300) ∧
  decodeWord 0xB234 = .ok (.jpV0 0x234) ∧ decodeWord 0xC30F = .ok (.rnd 3 0x0F) ∧
  decodeWord 0xD125 = .ok (.drw 1 2 5) ∧ decodeWord 0xE19E = .ok (.skp 1) ∧ decodeWord 0xF30A = .ok (.ldVxK 3) ∧
  decodeWord 0xF265 = .ok (.loadRegs 2) ∧ decodeWord 0x5121 = .error (.family5 1)

/-- Decoding the two bytes of an encoded well-formed instruction gives it back and leaves the bytes after it: no bit of any
operand is dropped, for all 35 instructions (30_encoding.md R70 to R73). -/
def Obligations.DecodeOfEncode : Prop :=
  ∀ (i : Instr) (rest : List Byte), i.wf = true → decodeBytes (bytesOfWord (encode i) ++ rest) = .ok (i, rest)

/-- A word that decodes is the encoding of the instruction it decodes to, and that instruction is well formed: each
instruction has one word. -/
def Obligations.EncodeOfDecode : Prop :=
  ∀ (w : Word) (i : Instr), decodeWord w = .ok i → i.wf = true ∧ encode i = w

/-- The decoder is the table of 30_encoding.md R72: a word that decodes has its instruction's match under its mask, and a
word that has some row's match under that row's mask decodes to an instruction of the row, but for 0x00E0 and 0x00EE, which
SYS's row takes in too. -/
def Obligations.DecodedWordIsItsRow : Prop :=
  (∀ (w : Word) (i : Instr), decodeWord w = .ok i → w &&& i.rowMask = i.rowMatch) ∧
  (∀ (w : Word) (i : Instr), w &&& i.rowMask = i.rowMatch → w ≠ 0x00E0 → w ≠ 0x00EE →
    ∃ j, decodeWord w = .ok j ∧ j.rowMatch = i.rowMatch ∧ j.rowMask = i.rowMask)

/-- The unrecognised words are those 30_encoding.md R74 lists, and each runs as a no-operation that advances pc by 2 (the
spec's decision D7). -/
def Obligations.UnrecognisedWordsAreNoOps : Prop :=
  (∀ w : Word, (∃ why, decodeWord w = .error why) ↔
    (w.toNat / 4096 = 0x5 ∧ w.toNat % 16 ≠ 0) ∨
    (w.toNat / 4096 = 0x8 ∧ w.toNat % 16 ∈ [0x8, 0x9, 0xA, 0xB, 0xC, 0xD, 0xF]) ∨
    (w.toNat / 4096 = 0x9 ∧ w.toNat % 16 ≠ 0) ∨
    (w.toNat / 4096 = 0xE ∧ w.toNat % 256 ∉ [0x9E, 0xA1]) ∨
    (w.toNat / 4096 = 0xF ∧ w.toNat % 256 ∉ [0x07, 0x0A, 0x15, 0x18, 0x1E, 0x29, 0x33, 0x55, 0x65])) ∧
  (∀ (s : State) (why : Unrecognised), s.latch = none → decodeWord s.fetch = .error why →
    ∃ t, step s = .next t ∧ (∀ rnd, stepWith rnd s = .next t) ∧ t.pc = s.pc + 2 ∧ SameBut [.pc] s t)

/-! ## The cycle -/

/-- The fetch is big-endian and each of its two addresses wraps modulo 4096 (40_cycle.md R92). -/
def Obligations.FetchIsBigEndian : Prop :=
  ∀ s : State, s.fetch.extractLsb' 8 8 = Memory.read s.mem (s.pc.toNat % 4096) ∧
    s.fetch.extractLsb' 0 8 = Memory.read s.mem ((s.pc.toNat + 1) % 4096)

/-- STEP (40_cycle.md R90): nothing changes while the latch is set; otherwise the word at pc is decoded and its instruction
executed. Where the word has no instruction, UnrecognisedWordsAreNoOps says what happens. -/
def Obligations.StepIsOneCycle : Prop :=
  (∀ (s : State) (r : Reg) (rnd : Byte), s.latch = some r → step s = .next s ∧ stepWith rnd s = .next s) ∧
  (∀ (s : State) (i : Instr) (rnd : Byte), s.latch = none → decodeWord s.fetch = .ok i →
    step s = exec i s ∧ stepWith rnd s = execWith rnd i s)

/-- Nothing traps, faults or halts (60_exceptions.md R200): every instruction from every state, every STEP and every
transaction of the host answers a next state, whatever the FONT. -/
def Obligations.EveryStepCompletes : Prop :=
  (∀ (i : Instr) (s : State), ∃ t, exec i s = .next t) ∧ (∀ s : State, ∃ t, step s = .next t) ∧
  (∀ (tr : Transaction) (s : State) (font : Font), ∃ t, transact tr s font = .next t) ∧
  (∀ (ts : List Transaction) (s : State) (font : Font), SafeRun ts s font)

/-- The random byte reaches the state only through CXKK: on any other word STEP does the same for every byte, and the step
without an input is the step on its free byte (40_cycle.md R97 and R98, which the spec marks as its decision D10 and as
derived). -/
def Obligations.RandomByteReachesOnlyRnd : Prop :=
  (∀ s : State, step s = stepWith s.freeByte s) ∧
  (∀ (rnd rnd' : Byte) (s : State), (∀ x kk, decodeWord s.fetch ≠ .ok (.rnd x kk)) → stepWith rnd s = stepWith rnd' s)

/-! ## Reset and the invariant -/

/-- The state before the first LOAD, for every FONT: the values of 10_state.md R33, memory as LOAD of an empty ROM leaves
it, Q at its default; `State.reset` is that state with the default FONT (the spec's decisions D4, D5, D8, D16, D17; log
entries 4 and 7). -/
def Obligations.ResetState : Prop :=
  (∀ font : Font, ResetValues (State.powerOn font) ∧ (∀ a : Word, (State.powerOn font).memRead a = clearedByte font a) ∧
    (State.powerOn font).q.vfReset = false ∧ (State.powerOn font).q.shifting = false ∧
    (State.powerOn font).q.jumping = false ∧ (State.powerOn font).q.clipping = true ∧
    (State.powerOn font).q.memoryIncrement = true) ∧
  State.reset = State.powerOn defaultFont

/-- The memory of the reset state is in its canonical form, with any FONT (the model's own form, log entry 5). -/
def Obligations.ResetMemoryIsCanonical : Prop := State.reset.Inv ∧ ∀ font : Font, (State.powerOn font).Inv

/-- Every step keeps memory in its canonical form, from every state that has it, whatever the random byte (the model's own
form, log entry 5). -/
def Obligations.StepKeepsCanonicalMemory : Prop :=
  ∀ (s t : State) (rnd : Byte), s.Inv → step s = .next t ∨ stepWith rnd s = .next t → t.Inv

/-- Every run of the host's transactions keeps memory in its canonical form (log entry 5). -/
def Obligations.RunsKeepCanonicalMemory : Prop :=
  ∀ (ts : List Transaction) (s t : State) (font : Font), s.Inv → runTransactions ts s font = .next t → t.Inv

/-- Memories in canonical form that read alike are equal (log entry 5). -/
def Obligations.CanonicalMemoryIsUnique : Prop :=
  ∀ m m' : Memory, Memory.wf m = true → Memory.wf m' = true →
    (∀ a, a < 4096 → Memory.read m a = Memory.read m' a) → m = m'

/-- A read returns the last value written to the address it selects, addresses taken modulo 4096, and any other address
reads as before (20_memory.md R51, R55). -/
def Obligations.MemoryReadAfterWrite : Prop :=
  ∀ (s : State) (a c : Word) (b : Byte), s.Inv →
    (a.toNat % 4096 = c.toNat % 4096 → (s.memWrite a b).memRead c = b) ∧
    (a.toNat % 4096 ≠ c.toNat % 4096 → (s.memWrite a b).memRead c = s.memRead c)

/-! ## Control flow -/

/-- SYS is a no-operation (the spec's decision D6). -/
def Obligations.SysOnlyAdvances : Prop := ∀ (nnn : Addr) (s : State), OnlySetsPc (.sys nnn) s (s.pc + 2)

/-- JP sets pc to its zero-extended target (general knowledge, G1). -/
def Obligations.JpSetsPc : Prop :=
  ∀ (nnn : Addr) (s : State), OnlySetsPc (.jp nnn) s (BitVec.ofNat 16 nnn.toNat)

/-- CALL moves the stack pointer up modulo 16, stores its own address there and jumps; the other entries stay (the pairing
of the pointer's moves is the spec's decision D5). -/
def Obligations.CallPushesItsAddress : Prop :=
  ∀ (nnn : Addr) (s : State), ∃ t, exec (.call nnn) s = .next t ∧ t.sp.val = (s.sp.val + 1) % 16 ∧
    t.stackEntry t.sp = s.pc ∧ (∀ j, j ≠ t.sp → t.stackEntry j = s.stackEntry j) ∧ t.pc.toNat = nnn.toNat ∧
    SameBut [.pc, .sp, .stack] s t

/-- RET goes on two bytes after the address the stack pointer's entry holds, and moves the pointer down modulo 16 (the
spec's decisions D1 and D5, 90_conflicts.md C1 and C3). -/
def Obligations.RetResumesAfterCall : Prop :=
  ∀ s : State, ∃ t, exec .ret s = .next t ∧ t.pc = s.stackEntry s.sp + 2 ∧ t.sp.val = (s.sp.val + 15) % 16 ∧
    SameBut [.pc, .sp] s t

/-- Up to sixteen nested calls unwind: as many returns go on after the first CALL, with the stack pointer where it was and
nothing else changed but stack entries (the spec's decisions D1 and D5). -/
def Obligations.CallsUnwind : Prop :=
  ∀ (targets : List Addr) (s : State), targets.length ≤ 16 →
    ∃ t, callsThenReturns targets s = .next t ∧ t.sp = s.sp ∧ (targets ≠ [] → t.pc = s.pc + 2) ∧
      SameBut [.pc, .stack] s t

/-- The four register skips: pc_skip when the condition holds, else pc_next, and nothing else (the conditions are general
knowledge, G2). -/
def Obligations.SkipsOnRegisters : Prop :=
  ∀ (x y : Reg) (kk : Byte) (s : State),
    OnlySetsPc (.seImm x kk) s (if s.reg x = kk then s.pc + 4 else s.pc + 2) ∧
    OnlySetsPc (.sneImm x kk) s (if s.reg x ≠ kk then s.pc + 4 else s.pc + 2) ∧
    OnlySetsPc (.seReg x y) s (if s.reg x = s.reg y then s.pc + 4 else s.pc + 2) ∧
    OnlySetsPc (.sneReg x y) s (if s.reg x ≠ s.reg y then s.pc + 4 else s.pc + 2)

/-- The two key skips test the key whose code is V[X] modulo 16 (polarity general knowledge, G2; the low nibble is the
spec's decision D13). -/
def Obligations.SkipsOnKeys : Prop :=
  ∀ (x : Reg) (k : Fin 16) (s : State), k.val = (s.reg x).toNat % 16 →
    OnlySetsPc (.skp x) s (if s.key k = true then s.pc + 4 else s.pc + 2) ∧
    OnlySetsPc (.sknp x) s (if s.key k = false then s.pc + 4 else s.pc + 2)

/-- BNNN adds V[0] to its address, or with Jumping the register its top nibble names; the sum is kept in pc as it is (the
width is the spec's decision D12). -/
def Obligations.JpV0AddsItsBase : Prop :=
  ∀ (nnn : Addr) (x : Reg) (s : State), x.val = nnn.toNat / 256 →
    OnlySetsPc (.jpV0 nnn) s (BitVec.ofNat 16 ((s.reg (if s.q.jumping then x else 0)).toNat + nnn.toNat))

/-! ## Registers and arithmetic -/

/-- The loads of one register, and ADD immediate, which is modulo 2^8 and writes no flag (meanings general knowledge, G1;
no carry is the spec's decision D15). -/
def Obligations.LoadsAndImmediateAdd : Prop :=
  ∀ (x y : Reg) (kk : Byte) (s : State),
    WritesRegister (.ldImm x kk) s x kk ∧
    WritesRegister (.addImm x kk) s x (BitVec.ofNat 8 (((s.reg x).toNat + kk.toNat) % 256)) ∧
    WritesRegister (.ldReg x y) s x (s.reg y) ∧
    WritesRegister (.ldVxDt x) s x s.dt

/-- The logic operations: the result in V[X], and VF cleared with VFReset, else untouched, so that with X = F it holds the
result only when VFReset is 0 (42_alu.md R124, R125, R126). -/
def Obligations.LogicOperations : Prop :=
  ∀ (x y : Reg) (s : State),
    let flag := fun b : Byte => if s.q.vfReset then 0 else if x = VF then b else s.reg VF
    WritesRegisterAndFlag (.orReg x y) s x (s.reg x ||| s.reg y) (flag (s.reg x ||| s.reg y)) ∧
    WritesRegisterAndFlag (.andReg x y) s x (s.reg x &&& s.reg y) (flag (s.reg x &&& s.reg y)) ∧
    WritesRegisterAndFlag (.xorReg x y) s x (s.reg x ^^^ s.reg y) (flag (s.reg x ^^^ s.reg y))

/-- ADD: the sum modulo 2^8, and VF = 1 exactly when the sum exceeds 255; with X = F, VF ends as the carry (42_alu.md
R127). -/
def Obligations.AddSetsCarry : Prop :=
  ∀ (x y : Reg) (s : State),
    WritesRegisterAndFlag (.addReg x y) s x (BitVec.ofNat 8 (((s.reg x).toNat + (s.reg y).toNat) % 256))
      (if (s.reg x).toNat + (s.reg y).toNat > 255 then 1 else 0)

/-- SUB and SUBN: the difference modulo 2^8, and VF = 1 exactly when the minuend is at least the subtrahend (which operand
is the minuend is general knowledge, G3). -/
def Obligations.SubtractionsSetNoBorrow : Prop :=
  ∀ (x y : Reg) (s : State),
    WritesRegisterAndFlag (.sub x y) s x (BitVec.ofNat 8 ((256 + (s.reg x).toNat - (s.reg y).toNat) % 256))
      (if (s.reg x).toNat ≥ (s.reg y).toNat then 1 else 0) ∧
    WritesRegisterAndFlag (.subn x y) s x (BitVec.ofNat 8 ((256 + (s.reg y).toNat - (s.reg x).toNat) % 256))
      (if (s.reg y).toNat ≥ (s.reg x).toNat then 1 else 0)

/-- The shifts by one of V[X] with Shifting, else of V[Y]: VF is the bit shifted out, and V[Y] is not written (the last is
the spec's decision D36). -/
def Obligations.ShiftsSetTheBitOut : Prop :=
  ∀ (x y : Reg) (s : State),
    let v := (if s.q.shifting then s.reg x else s.reg y).toNat
    WritesRegisterAndFlag (.shr x y) s x (BitVec.ofNat 8 (v / 2)) (BitVec.ofNat 8 (v % 2)) ∧
    WritesRegisterAndFlag (.shl x y) s x (BitVec.ofNat 8 (v * 2 % 256)) (BitVec.ofNat 8 (v / 128))

/-- RND writes the random byte masked by KK, for every byte STEP is given, and for the free byte where it is given none
(general knowledge, G1; the free byte is the spec's decision D10, log entry 1). -/
def Obligations.RndMasksItsByte : Prop :=
  ∀ (rnd : Byte) (x : Reg) (kk : Byte) (s : State),
    (∃ t, execWith rnd (.rnd x kk) s = .next t ∧ t.reg x = rnd &&& kk ∧ t.pc = s.pc + 2 ∧
      SameBut [.pc, .reg x, .draws] s t) ∧
    (∃ t, exec (.rnd x kk) s = .next t ∧ t.reg x = s.freeByte &&& kk ∧ t.pc = s.pc + 2 ∧ t.draws = s.draws + 1 ∧
      SameBut [.pc, .reg x, .draws] s t)

/-! ## Index register and memory -/

/-- LD I, ADD I and LD F: the address, the sum modulo 2^16 with no flag, and the glyph of the low nibble (general
knowledge, G1 and G5; the spec's decisions D9 and D11). -/
def Obligations.IndexRegisterLoads : Prop :=
  ∀ (nnn : Addr) (x : Reg) (s : State),
    WritesI (.ldI nnn) s nnn.toNat ∧
    WritesI (.addI x) s ((s.i.toNat + (s.reg x).toNat) % 65536) ∧
    WritesI (.ldF x) s (5 * ((s.reg x).toNat % 16))

/-- LD B stores the hundreds, tens and units digits of V[X] at I, I + 1 and I + 2, each address modulo 4096, leaves I and
every other byte, and changes nothing else (43_index_memory.md R143). -/
def Obligations.BcdStoresThreeDigits : Prop :=
  ∀ (x : Reg) (s : State), ∃ t, exec (.ldB x) s = .next t ∧ t.pc = s.pc + 2 ∧ SameBut [.pc, .mem] s t ∧
    (s.Inv → t.memRead s.i = BitVec.ofNat 8 ((s.reg x).toNat / 100) ∧
      t.memRead (s.i + 1) = BitVec.ofNat 8 ((s.reg x).toNat / 10 % 10) ∧
      t.memRead (s.i + 2) = BitVec.ofNat 8 ((s.reg x).toNat % 10) ∧
      ∀ a, memIndex a ≠ memIndex s.i → memIndex a ≠ memIndex (s.i + 1) → memIndex a ≠ memIndex (s.i + 2) →
        t.memRead a = s.memRead a)

/-- LD [I] stores V[0] to V[X] at I to I + X, each address modulo 4096, leaves every other byte, and advances I by X + 1
with MemoryIncrement (the width of that sum is the spec's decision D30). -/
def Obligations.StoreRegistersBlock : Prop :=
  ∀ (x : Reg) (s : State), ∃ t, exec (.storeRegs x) s = .next t ∧ t.pc = s.pc + 2 ∧
    t.i = (if s.q.memoryIncrement then s.i + BitVec.ofNat 16 (x.val + 1) else s.i) ∧ SameBut [.pc, .mem, .i] s t ∧
    (s.Inv → (∀ r : Reg, r ≤ x → t.memRead (s.i + BitVec.ofNat 16 r.val) = s.reg r) ∧
      ∀ a, (∀ k, k ≤ x.val → memIndex a ≠ memIndex (s.i + BitVec.ofNat 16 k)) → t.memRead a = s.memRead a)

/-- LD Vx, [I] loads V[0] to V[X] from I to I + X and leaves the other registers, advances I by X + 1 with MemoryIncrement,
and changes nothing else (the width of that sum is the spec's decision D30). -/
def Obligations.LoadRegistersBlock : Prop :=
  ∀ (x : Reg) (s : State), ∃ t, exec (.loadRegs x) s = .next t ∧ t.pc = s.pc + 2 ∧
    t.i = (if s.q.memoryIncrement then s.i + BitVec.ofNat 16 (x.val + 1) else s.i) ∧
    (∀ r : Reg, r ≤ x → t.reg r = s.memRead (s.i + BitVec.ofNat 16 r.val)) ∧
    (∀ p : StatePart, p ≠ .pc → p ≠ .i → (∀ r : Reg, r ≤ x → p ≠ .reg r) → p.Same s t)

/-- Registers stored with LD [I] come back with LD Vx, [I] from the same address and memory (spec/95_test_vectors.md E6). -/
def Obligations.StoreThenLoadRestores : Prop :=
  ∀ (x : Reg) (s t u : State), s.Inv → exec (.storeRegs x) s = .next t → u.mem = t.mem → u.i = s.i →
    ∃ w, exec (.loadRegs x) u = .next w ∧ ∀ r : Reg, r ≤ x → w.reg r = s.reg r

/-- A byte that LD [I] stores is fetched by the next fetch of its address: a word made of two stored registers, at pc
(20_memory.md R60, the spec's decision D22). -/
def Obligations.StoredBytesAreFetched : Prop :=
  ∀ (x j k : Reg) (s t : State), s.Inv → exec (.storeRegs x) s = .next t → k.val = j.val + 1 → k ≤ x →
    memIndex t.pc = memIndex (s.i + BitVec.ofNat 16 j.val) → t.fetch = s.reg j ++ s.reg k

/-! ## The display -/

/-- CLS clears every pixel, advances pc and changes nothing else, VF included (44_display.md R161). -/
def Obligations.ClearScreen : Prop :=
  ∀ s : State, ∃ t, exec .cls s = .next t ∧ (∀ (px : Fin 64) (py : Fin 32), t.disp.pixel px py = false) ∧
    t.pc = s.pc + 2 ∧ SameBut [.pc, .disp] s t

/-- DRW toggles exactly the pixels its sprite covers, from column V[X] mod 64 and row V[Y] mod 32 as they are before VF is
cleared, clipped or wrapped as Clipping says; VF = 1 exactly when one of them was lit; nothing else changes (44_display.md
R160, R162, R163; the spec's decisions D2, D3, D14 and D26). -/
def Obligations.DrawTogglesTheSprite : Prop :=
  ∀ (x y : Reg) (n : Fin 16) (s : State),
    let covers := SpriteCovers s ((s.reg x).toNat % 64) ((s.reg y).toNat % 32) n.val
    ∃ t, exec (.drw x y n) s = .next t ∧
      (∀ px py, covers px py → t.disp.pixel px py = !s.disp.pixel px py) ∧
      (∀ px py, ¬ covers px py → t.disp.pixel px py = s.disp.pixel px py) ∧
      ((∃ px py, covers px py ∧ s.disp.pixel px py = true) → t.reg VF = 1) ∧
      ((¬ ∃ px py, covers px py ∧ s.disp.pixel px py = true) → t.reg VF = 0) ∧
      t.pc = s.pc + 2 ∧ SameBut [.pc, .disp, .reg VF] s t

/-- Drawing the same sprite twice at the same place (X or Y = F keeps it only where the flag selects the same column or
row) restores the display, and the second draw sets VF exactly when the sprite covers a pixel that was 0 before the first
(spec/95_test_vectors.md E3; where the sprite falls is the spec's decisions D2, D3 and D14; log entry 13 on R162's corner
case f). -/
def Obligations.DrawTwiceRestores : Prop :=
  ∀ (x y : Reg) (n : Fin 16) (s t : State), exec (.drw x y n) s = .next t →
    (t.reg x).toNat % 64 = (s.reg x).toNat % 64 → (t.reg y).toNat % 32 = (s.reg y).toNat % 32 →
    ∃ u, exec (.drw x y n) t = .next u ∧ (∀ px py, u.disp.pixel px py = s.disp.pixel px py) ∧
      (u.reg VF = 1 ↔
        ∃ px py, SpriteCovers s ((s.reg x).toNat % 64) ((s.reg y).toNat % 32) n.val px py ∧ s.disp.pixel px py = false)

/-! ## Keypad and timers -/

/-- LD Vx, K latches X, advances pc and changes nothing else (pc is the spec's decision D38). -/
def Obligations.WaitForKeyLatches : Prop :=
  ∀ (x : Reg) (s : State), ∃ t, exec (.ldVxK x) s = .next t ∧ t.latch = some x ∧ t.pc = s.pc + 2 ∧
    SameBut [.pc, .latch] s t

/-- LD DT and LD ST write their timer, advance pc and change nothing else (which timer is general knowledge, G4). -/
def Obligations.TimerLoads : Prop :=
  ∀ (x : Reg) (s : State),
    (∃ t, exec (.ldDtVx x) s = .next t ∧ t.dt = s.reg x ∧ t.pc = s.pc + 2 ∧ SameBut [.pc, .dt] s t) ∧
    (∃ t, exec (.ldStVx x) s = .next t ∧ t.st = s.reg x ∧ t.pc = s.pc + 2 ∧ SameBut [.pc, .st] s t)

/-! ## The host's transactions -/

/-- TICK takes one from each timer that is not 0, latched or not, and changes nothing else (60_exceptions.md R210). -/
def Obligations.TickDecrements : Prop :=
  ∀ (s : State) (font : Font), ∃ t, transact .tick s font = .next t ∧ (s.dt.toNat > 0 → t.dt.toNat = s.dt.toNat - 1) ∧
    (s.dt = 0 → t.dt = 0) ∧ (s.st.toNat > 0 → t.st.toNat = s.st.toNat - 1) ∧ (s.st = 0 → t.st = 0) ∧
    SameBut [.dt, .st] s t

/-- Any number of TICKs counts each timer down by as many, stops at 0 and never goes below (spec/95_test_vectors.md E8). -/
def Obligations.TicksCountDown : Prop :=
  ∀ (n : Nat) (s : State) (font : Font), ∃ t, runTransactions (List.replicate n .tick) s font = .next t ∧
    t.dt.toNat = s.dt.toNat - n ∧ t.st.toNat = s.st.toNat - n ∧ SameBut [.dt, .st] s t

/-- KEY: an invalid code changes nothing; a valid one sets its flag; a release with a pending wait also writes the code to
the latched register and clears the latch (60_exceptions.md R212; the spec's decisions D19 and D24). -/
def Obligations.KeyTransaction : Prop :=
  ∀ (k : Nat) (pressed : Bool) (s : State) (font : Font),
    (k > 15 → answer (.key k pressed) s font = .keyed .invalidKeyCode ∧
      transact (.key k pressed) s font = .next s) ∧
    (k ≤ 15 → answer (.key k pressed) s font = .keyed .ok ∧
      ∃ t, transact (.key k pressed) s font = .next t ∧
        (∀ j : Fin 16, t.key j = if j.val = k then pressed else s.key j) ∧
        (pressed = true ∨ s.latch = none → SameBut [.keys] s t) ∧
        (∀ r, pressed = false → s.latch = some r →
          t.latch = none ∧ (t.reg r).toNat = k ∧ SameBut [.keys, .latch, .reg r] s t))

/-- The wait state is left only by a key release or a LOAD: through any other transactions, in any number and order, the
latch stays, and nothing changes but the timers, the key flags and Q (60_exceptions.md R216, which the spec marks as
derived). -/
def Obligations.WaitEndsOnlyByReleaseOrLoad : Prop :=
  ∀ (ts : List Transaction) (s t : State) (r : Reg) (font : Font), s.latch = some r →
    (∀ tr ∈ ts, (∀ rom, tr ≠ .load rom) ∧ (∀ k, k ≤ 15 → tr ≠ .key k false)) →
    runTransactions ts s font = .next t → t.latch = some r ∧ SameBut [.dt, .st, .keys, .q] s t

/-- LOAD of a ROM that fits, for every FONT: ok; the ROM's bytes from 0x200, FONT and zeros everywhere else, every other
part at its reset value, and Q as it was (70_reset_and_hazards.md R241, R243, R245; the spec's decisions D5, D8, D16, D33,
D34). -/
def Obligations.LoadInstallsProgram : Prop :=
  ∀ (rom : List Byte) (s : State) (font : Font), rom.length ≤ 3584 →
    answer (.load rom) s font = .loaded .ok ∧
    ∃ t, transact (.load rom) s font = .next t ∧
      (∀ j (h : j < rom.length), t.memRead (BitVec.ofNat 16 (0x200 + j)) = rom[j]) ∧
      (∀ a : Word, a.toNat % 4096 < 0x200 ∨ 0x200 + rom.length ≤ a.toNat % 4096 → t.memRead a = clearedByte font a) ∧
      ResetValues t ∧ t.q = s.q

/-- LOAD of a ROM that does not fit: ProgramTooLarge, no byte copied, everything reset but Q (70_reset_and_hazards.md R244;
the spec's decision D18). -/
def Obligations.OversizedLoadResets : Prop :=
  ∀ (rom : List Byte) (s : State) (font : Font), rom.length > 3584 →
    answer (.load rom) s font = .loaded .programTooLarge ∧
    ∃ t, transact (.load rom) s font = .next t ∧ (∀ a : Word, t.memRead a = clearedByte font a) ∧ ResetValues t ∧ t.q = s.q

/-- The font is read where FX29 points: after a LOAD that fits, with any FONT, FX29 leaves I at the five bytes of FONT's glyph
of V[X] modulo 16 (43_index_memory.md R142, R146; general knowledge, G1 and G5, and the spec's decisions D8 and D9). -/
def Obligations.LoadedFontHoldsTheGlyphs : Prop :=
  ∀ (rom : List Byte) (s t u : State) (font : Font) (x : Reg) (r : Nat) (hr : r < 5), rom.length ≤ 3584 →
    transact (.load rom) s font = .next t → u.mem = t.mem →
    ∃ w, exec (.ldF x) u = .next w ∧
      w.memRead (w.i + BitVec.ofNat 16 r) = font[5 * ((u.reg x).toNat % 16) + r]'(by omega)

/-- The queries: READ_PIXEL gives the pixel inside the screen and is refused outside it, AWAITING_KEY is 1 exactly while
latched, SOUND_ACTIVE exactly while ST is not 0; none changes the state (60_exceptions.md R211, R213, R214; the spec's
decisions D27 and D29). -/
def Obligations.QueriesAnswer : Prop :=
  ∀ (s : State) (font : Font),
    (∀ (x : Fin 64) (y : Fin 32), answer (.readPixel x.val y.val) s font = .bit (s.disp.pixel x y)) ∧
    (∀ x y : Nat, x ≥ 64 ∨ y ≥ 32 → answer (.readPixel x y) s font = .noSuchPixel) ∧
    (s.latch = none → answer .awaitingKey s font = .bit false) ∧
    (∀ r, s.latch = some r → answer .awaitingKey s font = .bit true) ∧
    (s.st = 0 → answer .soundActive s font = .bit false) ∧ (s.st ≠ 0 → answer .soundActive s font = .bit true) ∧
    (∀ x y : Nat, transact (.readPixel x y) s font = .next s) ∧ transact .awaitingKey s font = .next s ∧
    transact .soundActive s font = .next s

/-- SET_QUIRKS writes Q and nothing else (60_exceptions.md R215, the spec's decision D20). -/
def Obligations.SetQuirksWritesQ : Prop :=
  ∀ (q : Quirks) (s : State) (font : Font), ∃ t, transact (.setQuirks q) s font = .next t ∧ t.q = q ∧ SameBut [.q] s t

/-- Q's five bits, 0 to 4: VFReset, Shifting, Jumping, Clipping, MemoryIncrement; the default is 0b11000 (10_state.md R30,
R31; the layout and the default are the spec's decision D4). -/
def Obligations.QuirkLayout : Prop :=
  (∀ q : Quirks, q.toBits.getLsbD 0 = q.vfReset ∧ q.toBits.getLsbD 1 = q.shifting ∧ q.toBits.getLsbD 2 = q.jumping ∧
    q.toBits.getLsbD 3 = q.clipping ∧ q.toBits.getLsbD 4 = q.memoryIncrement ∧ quirksOfBits q.toBits = q) ∧
  Quirks.default.toBits = 0b11000

/-! ## The whole machine -/

/-- What a program cannot write: no STEP changes Q or a key flag, and none clears the latch; only LD Vx, K sets it
(60_exceptions.md R207, 10_state.md R28, R29, R30). -/
def Obligations.ProgramsLeaveHostState : Prop :=
  ∀ (rnd : Byte) (s t : State), step s = .next t ∨ stepWith rnd s = .next t →
    t.q = s.q ∧ (∀ k, t.key k = s.key k) ∧ (∀ r, s.latch = some r → t.latch = some r) ∧
    (∀ r, t.latch = some r → s.latch = some r ∨ (s.latch = none ∧ decodeWord s.fetch = .ok (.ldVxK r)))

/-- Every instruction writes only the parts the table of 10_state.md R34 gives it (the spec marks the table as derived). -/
def Obligations.InstructionsWriteOnlyTheirParts : Prop :=
  ∀ (i : Instr) (s t : State), exec i s = .next t → SameBut (writtenParts i) s t

/-- VF changes only under an instruction that 10_state.md R21 names: a flag writer, a logic operation with VFReset, or one
whose destination is VF (the spec marks the list as derived). -/
def Obligations.VfChangesOnlyWhereNamed : Prop :=
  ∀ (i : Instr) (s t : State), exec i s = .next t → t.reg VF ≠ s.reg VF →
    (∃ x y, i = .addReg x y ∨ i = .sub x y ∨ i = .subn x y ∨ i = .shr x y ∨ i = .shl x y) ∨
    (∃ x y n, i = .drw x y n) ∨
    (s.q.vfReset = true ∧ ∃ x y, i = .orReg x y ∨ i = .andReg x y ∨ i = .xorReg x y) ∨
    (∃ y, i = .ldReg VF y ∨ i = .orReg VF y ∨ i = .andReg VF y ∨ i = .xorReg VF y) ∨
    (∃ kk, i = .ldImm VF kk ∨ i = .addImm VF kk ∨ i = .rnd VF kk) ∨ i = .ldVxDt VF ∨ i = .loadRegs VF

/-- Every instruction that is no jump, call, return or skip advances pc by 2, modulo 2^16 (40_cycle.md R94, the spec's
decision D12). -/
def Obligations.SequentialAdvance : Prop :=
  ∀ (i : Instr) (s t : State), writesTarget i = false → exec i s = .next t → t.pc.toNat = (s.pc.toNat + 2) % 65536

/-- What a program cannot see: two states that differ only in bits 12 to 15 of I, of pc and of the stack entries go on
differing only there, STEP after STEP (10_state.md R35, which the spec marks as derived). -/
def Obligations.HiddenBitsDoNotShow : Prop :=
  ∀ (rnd : Byte) (s t s' : State), SameToAProgram s t → stepWith rnd s = .next s' →
    ∃ t', stepWith rnd t = .next t' ∧ SameToAProgram s' t'

/-- A word placed where the machine fetches is what the next step runs, whatever was there and whether or not it was
waiting; placing it changes nothing but memory and the latch (log entry 3). -/
def Obligations.PlacedWordRuns : Prop :=
  ∀ (w : Nat) (i : Instr) (s : State), s.Inv → decodeTableWord 16 w = some i →
    step (s.withFetchWord 16 w) = exec i (s.withFetchWord 16 w) ∧ SameBut [.mem, .latch] s (s.withFetchWord 16 w)
end

