-- ==== Sys2Proof/Laws/Decode.lean ====
section
/-! SUPPORT. The fields of a word and the words of fields as numbers (30_encoding.md R71): with these, what a field reads
from an encoded word is linear arithmetic. -/

namespace Sys2Proof

/-! ## The fields of a word -/

/-- F is the word divided by 4096. -/
theorem fieldF_eq (op : Word) : fieldF op = op.toNat / 4096 := by
  have := op.isLt
  simp only [fieldF, BitVec.extractLsb'_toNat, Nat.shiftRight_eq_div_pow]; omega

/-- X is the second digit. -/
theorem fieldX_val (op : Word) : (fieldX op).val = op.toNat / 256 % 16 := by
  simp [fieldX, Nat.shiftRight_eq_div_pow]

/-- Y is the third digit. -/
theorem fieldY_val (op : Word) : (fieldY op).val = op.toNat / 16 % 16 := by
  simp [fieldY, Nat.shiftRight_eq_div_pow]

/-- N is the last digit. -/
theorem fieldN_val (op : Word) : (fieldN op).val = op.toNat % 16 := by
  simp [fieldN]

/-- KK is the low byte. -/
theorem fieldKK_toNat (op : Word) : (fieldKK op).toNat = op.toNat % 256 := by
  simp [fieldKK, BitVec.extractLsb'_toNat]

/-- NNN is the low twelve bits. -/
theorem fieldNNN_toNat (op : Word) : (fieldNNN op).toNat = op.toNat % 4096 := by
  simp [fieldNNN, BitVec.extractLsb'_toNat]

/-! ## The words of fields -/

/-- A concatenation as a number. -/
theorem toNat_append_eq {m n : Nat} (a : BitVec m) (b : BitVec n) : (a ++ b).toNat = a.toNat * 2 ^ n + b.toNat := by
  rw [BitVec.toNat_append, ← Nat.shiftLeft_add_eq_or_of_lt b.isLt, Nat.shiftLeft_eq]

/-- A register index as a four-bit field. -/
theorem toNat_ofReg (x : Reg) : (BitVec.ofFin x : BitVec 4).toNat = x.val := rfl

/-- The word FNNN as a number. -/
theorem wordFNNN_toNat (f : BitVec 4) (nnn : Addr) : (wordFNNN f nnn).toNat = f.toNat * 4096 + nnn.toNat :=
  toNat_append_eq f nnn

/-- The word FXKK as a number. -/
theorem wordFXKK_toNat (f : BitVec 4) (x : Reg) (kk : Byte) :
    (wordFXKK f x kk).toNat = f.toNat * 4096 + x.val * 256 + kk.toNat := by
  have h : (f ++ (BitVec.ofFin x : BitVec 4) ++ kk).toNat = f.toNat * 4096 + x.val * 256 + kk.toNat := by
    rw [toNat_append_eq, toNat_append_eq, toNat_ofReg x]; omega
  exact h

/-- The word FXYN as a number. -/
theorem wordFXYN_toNat (f : BitVec 4) (x y : Reg) (n : Fin 16) :
    (wordFXYN f x y n).toNat = f.toNat * 4096 + x.val * 256 + y.val * 16 + n.val := by
  have h : (f ++ (BitVec.ofFin x : BitVec 4) ++ (BitVec.ofFin y : BitVec 4) ++ (BitVec.ofFin n : BitVec 4)).toNat =
      f.toNat * 4096 + x.val * 256 + y.val * 16 + n.val := by
    rw [toNat_append_eq, toNat_append_eq, toNat_append_eq, toNat_ofReg x, toNat_ofReg y, toNat_ofReg n]
    omega
  exact h

/-- Two bytes as a word: the first is the high byte. -/
theorem wordOfBytes_toNat (hi lo : Byte) : (wordOfBytes hi lo).toNat = hi.toNat * 256 + lo.toNat :=
  toNat_append_eq hi lo

/-- The bytes of a word give the word back. -/
theorem wordOfBytes_bytesOfWord (op : Word) : wordOfBytes (op.extractLsb' 8 8) (op.extractLsb' 0 8) = op := by
  have := op.isLt
  apply BitVec.eq_of_toNat_eq
  rw [wordOfBytes_toNat]
  simp only [BitVec.extractLsb'_toNat, Nat.shiftRight_eq_div_pow]
  omega

/-! ## The fields of an encoded word -/

@[simp] theorem fieldF_wordFNNN (f : BitVec 4) (nnn : Addr) : fieldF (wordFNNN f nnn) = f.toNat := by
  rw [fieldF_eq, wordFNNN_toNat]; omega

@[simp] theorem fieldF_wordFXKK (f : BitVec 4) (x : Reg) (kk : Byte) : fieldF (wordFXKK f x kk) = f.toNat := by
  rw [fieldF_eq, wordFXKK_toNat]; omega

@[simp] theorem fieldF_wordFXYN (f : BitVec 4) (x y : Reg) (n : Fin 16) : fieldF (wordFXYN f x y n) = f.toNat := by
  rw [fieldF_eq, wordFXYN_toNat]; omega

@[simp] theorem fieldX_wordFXKK (f : BitVec 4) (x : Reg) (kk : Byte) : fieldX (wordFXKK f x kk) = x := by
  apply Fin.ext; rw [fieldX_val, wordFXKK_toNat]; omega

@[simp] theorem fieldX_wordFXYN (f : BitVec 4) (x y : Reg) (n : Fin 16) : fieldX (wordFXYN f x y n) = x := by
  apply Fin.ext; rw [fieldX_val, wordFXYN_toNat]; omega

@[simp] theorem fieldY_wordFXYN (f : BitVec 4) (x y : Reg) (n : Fin 16) : fieldY (wordFXYN f x y n) = y := by
  apply Fin.ext; rw [fieldY_val, wordFXYN_toNat]; omega

@[simp] theorem fieldN_wordFXYN (f : BitVec 4) (x y : Reg) (n : Fin 16) : fieldN (wordFXYN f x y n) = n := by
  apply Fin.ext; rw [fieldN_val, wordFXYN_toNat]; omega

@[simp] theorem fieldKK_wordFXKK (f : BitVec 4) (x : Reg) (kk : Byte) : fieldKK (wordFXKK f x kk) = kk := by
  apply BitVec.eq_of_toNat_eq; rw [fieldKK_toNat, wordFXKK_toNat]; omega

@[simp] theorem fieldNNN_wordFNNN (f : BitVec 4) (nnn : Addr) : fieldNNN (wordFNNN f nnn) = nnn := by
  apply BitVec.eq_of_toNat_eq; rw [fieldNNN_toNat, wordFNNN_toNat]; omega

/-! ## A word is the word of its fields -/

/-- The word FNNN of a word's own fields. -/
theorem wordFNNN_fields (w : Word) (f : BitVec 4) (h : fieldF w = f.toNat) : wordFNNN f (fieldNNN w) = w := by
  rw [fieldF_eq] at h; apply BitVec.eq_of_toNat_eq; rw [wordFNNN_toNat, fieldNNN_toNat]; omega

/-- The word FXKK of a word's own fields. -/
theorem wordFXKK_fields (w : Word) (f : BitVec 4) (h : fieldF w = f.toNat) : wordFXKK f (fieldX w) (fieldKK w) = w := by
  rw [fieldF_eq] at h; apply BitVec.eq_of_toNat_eq; rw [wordFXKK_toNat, fieldX_val, fieldKK_toNat]; omega

/-- The word FXYN of a word's own fields. -/
theorem wordFXYN_fields (w : Word) (f : BitVec 4) (h : fieldF w = f.toNat) :
    wordFXYN f (fieldX w) (fieldY w) (fieldN w) = w := by
  rw [fieldF_eq] at h; apply BitVec.eq_of_toNat_eq; rw [wordFXYN_toNat, fieldX_val, fieldY_val, fieldN_val]; omega

/-! ## The masks of the table's rows (30_encoding.md R72) -/

/-- A word is its four digits. -/
theorem word_digits (op : Word) :
    op = op.extractLsb' 12 4 ++ op.extractLsb' 8 4 ++ op.extractLsb' 4 4 ++ op.extractLsb' 0 4 := by
  have := op.isLt
  apply BitVec.eq_of_toNat_eq
  rw [toNat_append_eq, toNat_append_eq, toNat_append_eq]
  simp only [BitVec.extractLsb'_toNat, Nat.shiftRight_eq_div_pow]
  omega

/-- A word under a mask of whole digits, digit by digit. -/
theorem and_digits (op : Word) (a b c d : BitVec 4) :
    (op &&& (a ++ b ++ c ++ d : BitVec (4 + 4 + 4 + 4))).toNat =
      (op.extractLsb' 12 4 &&& a).toNat * 4096 + (op.extractLsb' 8 4 &&& b).toNat * 256
        + (op.extractLsb' 4 4 &&& c).toNat * 16 + (op.extractLsb' 0 4 &&& d).toNat := by
  have h : ((op.extractLsb' 12 4 ++ op.extractLsb' 8 4 ++ op.extractLsb' 4 4 ++ op.extractLsb' 0 4) &&&
      (a ++ b ++ c ++ d)).toNat = (op.extractLsb' 12 4 &&& a).toNat * 4096 + (op.extractLsb' 8 4 &&& b).toNat * 256
        + (op.extractLsb' 4 4 &&& c).toNat * 16 + (op.extractLsb' 0 4 &&& d).toNat := by
    rw [BitVec.and_append, BitVec.and_append, BitVec.and_append, toNat_append_eq, toNat_append_eq, toNat_append_eq]
    omega
  rw [← word_digits] at h
  exact h

/-- A digit under the full mask. -/
theorem digit_and_full (v : BitVec 4) : v &&& 0xF#4 = v := BitVec.and_allOnes

/-- The mask 0xF000 keeps the family. -/
theorem and_F000 (op : Word) : (op &&& 0xF000#16).toNat = op.toNat / 4096 * 4096 := by
  have := op.isLt
  refine (and_digits op 0xF 0x0 0x0 0x0).trans ?_
  simp only [BitVec.ofNat_eq_ofNat, digit_and_full, BitVec.and_zero, BitVec.toNat_ofNat, BitVec.extractLsb'_toNat,
    Nat.shiftRight_eq_div_pow]
  omega

/-- The mask 0xF00F keeps the family and the low digit. -/
theorem and_F00F (op : Word) : (op &&& 0xF00F#16).toNat = op.toNat / 4096 * 4096 + op.toNat % 16 := by
  have := op.isLt
  refine (and_digits op 0xF 0x0 0x0 0xF).trans ?_
  simp only [BitVec.ofNat_eq_ofNat, digit_and_full, BitVec.and_zero, BitVec.toNat_ofNat, BitVec.extractLsb'_toNat,
    Nat.shiftRight_eq_div_pow]
  omega

/-- The mask 0xF0FF keeps the family and the low byte. -/
theorem and_F0FF (op : Word) : (op &&& 0xF0FF#16).toNat = op.toNat / 4096 * 4096 + op.toNat % 256 := by
  have := op.isLt
  refine (and_digits op 0xF 0x0 0xF 0xF).trans ?_
  simp only [BitVec.ofNat_eq_ofNat, digit_and_full, BitVec.and_zero, BitVec.toNat_ofNat, BitVec.extractLsb'_toNat,
    Nat.shiftRight_eq_div_pow]
  omega

end Sys2Proof
end

