-- ==== Sys2Proof/Laws/State.lean ====
section
/-! SUPPORT. What each update of the state does to each field: one lemma per field per update, so that no later proof
unfolds a record update. -/

namespace Sys2Proof.Machine.State

variable (s : State)

/-! ### setReg -/

@[simp] theorem setReg_mem (r : Reg) (b : Byte) : (s.setReg r b).mem = s.mem := rfl
@[simp] theorem setReg_v (r : Reg) (b : Byte) : (s.setReg r b).v = s.v.set r b := rfl
@[simp] theorem setReg_i (r : Reg) (b : Byte) : (s.setReg r b).i = s.i := rfl
@[simp] theorem setReg_pc (r : Reg) (b : Byte) : (s.setReg r b).pc = s.pc := rfl
@[simp] theorem setReg_stack (r : Reg) (b : Byte) : (s.setReg r b).stack = s.stack := rfl
@[simp] theorem setReg_sp (r : Reg) (b : Byte) : (s.setReg r b).sp = s.sp := rfl
@[simp] theorem setReg_dt (r : Reg) (b : Byte) : (s.setReg r b).dt = s.dt := rfl
@[simp] theorem setReg_st (r : Reg) (b : Byte) : (s.setReg r b).st = s.st := rfl
@[simp] theorem setReg_disp (r : Reg) (b : Byte) : (s.setReg r b).disp = s.disp := rfl
@[simp] theorem setReg_keys (r : Reg) (b : Byte) : (s.setReg r b).keys = s.keys := rfl
@[simp] theorem setReg_latch (r : Reg) (b : Byte) : (s.setReg r b).latch = s.latch := rfl
@[simp] theorem setReg_q (r : Reg) (b : Byte) : (s.setReg r b).q = s.q := rfl
@[simp] theorem setReg_draws (r : Reg) (b : Byte) : (s.setReg r b).draws = s.draws := rfl

/-! ### setFlag -/

@[simp] theorem setFlag_mem (f : Bool) : (s.setFlag f).mem = s.mem := rfl
@[simp] theorem setFlag_v (f : Bool) : (s.setFlag f).v = s.v.set VF (if f then 1 else 0) := rfl
@[simp] theorem setFlag_i (f : Bool) : (s.setFlag f).i = s.i := rfl
@[simp] theorem setFlag_pc (f : Bool) : (s.setFlag f).pc = s.pc := rfl
@[simp] theorem setFlag_stack (f : Bool) : (s.setFlag f).stack = s.stack := rfl
@[simp] theorem setFlag_sp (f : Bool) : (s.setFlag f).sp = s.sp := rfl
@[simp] theorem setFlag_dt (f : Bool) : (s.setFlag f).dt = s.dt := rfl
@[simp] theorem setFlag_st (f : Bool) : (s.setFlag f).st = s.st := rfl
@[simp] theorem setFlag_disp (f : Bool) : (s.setFlag f).disp = s.disp := rfl
@[simp] theorem setFlag_keys (f : Bool) : (s.setFlag f).keys = s.keys := rfl
@[simp] theorem setFlag_latch (f : Bool) : (s.setFlag f).latch = s.latch := rfl
@[simp] theorem setFlag_q (f : Bool) : (s.setFlag f).q = s.q := rfl
@[simp] theorem setFlag_draws (f : Bool) : (s.setFlag f).draws = s.draws := rfl

/-! ### setI -/

@[simp] theorem setI_mem (w : Word) : (s.setI w).mem = s.mem := rfl
@[simp] theorem setI_v (w : Word) : (s.setI w).v = s.v := rfl
@[simp] theorem setI_i (w : Word) : (s.setI w).i = w := rfl
@[simp] theorem setI_pc (w : Word) : (s.setI w).pc = s.pc := rfl
@[simp] theorem setI_stack (w : Word) : (s.setI w).stack = s.stack := rfl
@[simp] theorem setI_sp (w : Word) : (s.setI w).sp = s.sp := rfl
@[simp] theorem setI_dt (w : Word) : (s.setI w).dt = s.dt := rfl
@[simp] theorem setI_st (w : Word) : (s.setI w).st = s.st := rfl
@[simp] theorem setI_disp (w : Word) : (s.setI w).disp = s.disp := rfl
@[simp] theorem setI_keys (w : Word) : (s.setI w).keys = s.keys := rfl
@[simp] theorem setI_latch (w : Word) : (s.setI w).latch = s.latch := rfl
@[simp] theorem setI_q (w : Word) : (s.setI w).q = s.q := rfl
@[simp] theorem setI_draws (w : Word) : (s.setI w).draws = s.draws := rfl

/-! ### setDt -/

@[simp] theorem setDt_mem (b : Byte) : (s.setDt b).mem = s.mem := rfl
@[simp] theorem setDt_v (b : Byte) : (s.setDt b).v = s.v := rfl
@[simp] theorem setDt_i (b : Byte) : (s.setDt b).i = s.i := rfl
@[simp] theorem setDt_pc (b : Byte) : (s.setDt b).pc = s.pc := rfl
@[simp] theorem setDt_stack (b : Byte) : (s.setDt b).stack = s.stack := rfl
@[simp] theorem setDt_sp (b : Byte) : (s.setDt b).sp = s.sp := rfl
@[simp] theorem setDt_dt (b : Byte) : (s.setDt b).dt = b := rfl
@[simp] theorem setDt_st (b : Byte) : (s.setDt b).st = s.st := rfl
@[simp] theorem setDt_disp (b : Byte) : (s.setDt b).disp = s.disp := rfl
@[simp] theorem setDt_keys (b : Byte) : (s.setDt b).keys = s.keys := rfl
@[simp] theorem setDt_latch (b : Byte) : (s.setDt b).latch = s.latch := rfl
@[simp] theorem setDt_q (b : Byte) : (s.setDt b).q = s.q := rfl
@[simp] theorem setDt_draws (b : Byte) : (s.setDt b).draws = s.draws := rfl

/-! ### setSt -/

@[simp] theorem setSt_mem (b : Byte) : (s.setSt b).mem = s.mem := rfl
@[simp] theorem setSt_v (b : Byte) : (s.setSt b).v = s.v := rfl
@[simp] theorem setSt_i (b : Byte) : (s.setSt b).i = s.i := rfl
@[simp] theorem setSt_pc (b : Byte) : (s.setSt b).pc = s.pc := rfl
@[simp] theorem setSt_stack (b : Byte) : (s.setSt b).stack = s.stack := rfl
@[simp] theorem setSt_sp (b : Byte) : (s.setSt b).sp = s.sp := rfl
@[simp] theorem setSt_dt (b : Byte) : (s.setSt b).dt = s.dt := rfl
@[simp] theorem setSt_st (b : Byte) : (s.setSt b).st = b := rfl
@[simp] theorem setSt_disp (b : Byte) : (s.setSt b).disp = s.disp := rfl
@[simp] theorem setSt_keys (b : Byte) : (s.setSt b).keys = s.keys := rfl
@[simp] theorem setSt_latch (b : Byte) : (s.setSt b).latch = s.latch := rfl
@[simp] theorem setSt_q (b : Byte) : (s.setSt b).q = s.q := rfl
@[simp] theorem setSt_draws (b : Byte) : (s.setSt b).draws = s.draws := rfl

/-! ### setLatch -/

@[simp] theorem setLatch_mem (l : Option Reg) : (s.setLatch l).mem = s.mem := rfl
@[simp] theorem setLatch_v (l : Option Reg) : (s.setLatch l).v = s.v := rfl
@[simp] theorem setLatch_i (l : Option Reg) : (s.setLatch l).i = s.i := rfl
@[simp] theorem setLatch_pc (l : Option Reg) : (s.setLatch l).pc = s.pc := rfl
@[simp] theorem setLatch_stack (l : Option Reg) : (s.setLatch l).stack = s.stack := rfl
@[simp] theorem setLatch_sp (l : Option Reg) : (s.setLatch l).sp = s.sp := rfl
@[simp] theorem setLatch_dt (l : Option Reg) : (s.setLatch l).dt = s.dt := rfl
@[simp] theorem setLatch_st (l : Option Reg) : (s.setLatch l).st = s.st := rfl
@[simp] theorem setLatch_disp (l : Option Reg) : (s.setLatch l).disp = s.disp := rfl
@[simp] theorem setLatch_keys (l : Option Reg) : (s.setLatch l).keys = s.keys := rfl
@[simp] theorem setLatch_latch (l : Option Reg) : (s.setLatch l).latch = l := rfl
@[simp] theorem setLatch_q (l : Option Reg) : (s.setLatch l).q = s.q := rfl
@[simp] theorem setLatch_draws (l : Option Reg) : (s.setLatch l).draws = s.draws := rfl

/-! ### setKey -/

@[simp] theorem setKey_mem (k : Fin 16) (p : Bool) : (s.setKey k p).mem = s.mem := rfl
@[simp] theorem setKey_v (k : Fin 16) (p : Bool) : (s.setKey k p).v = s.v := rfl
@[simp] theorem setKey_i (k : Fin 16) (p : Bool) : (s.setKey k p).i = s.i := rfl
@[simp] theorem setKey_pc (k : Fin 16) (p : Bool) : (s.setKey k p).pc = s.pc := rfl
@[simp] theorem setKey_stack (k : Fin 16) (p : Bool) : (s.setKey k p).stack = s.stack := rfl
@[simp] theorem setKey_sp (k : Fin 16) (p : Bool) : (s.setKey k p).sp = s.sp := rfl
@[simp] theorem setKey_dt (k : Fin 16) (p : Bool) : (s.setKey k p).dt = s.dt := rfl
@[simp] theorem setKey_st (k : Fin 16) (p : Bool) : (s.setKey k p).st = s.st := rfl
@[simp] theorem setKey_disp (k : Fin 16) (p : Bool) : (s.setKey k p).disp = s.disp := rfl
@[simp] theorem setKey_keys (k : Fin 16) (p : Bool) : (s.setKey k p).keys = s.keys.set k p := rfl
@[simp] theorem setKey_latch (k : Fin 16) (p : Bool) : (s.setKey k p).latch = s.latch := rfl
@[simp] theorem setKey_q (k : Fin 16) (p : Bool) : (s.setKey k p).q = s.q := rfl
@[simp] theorem setKey_draws (k : Fin 16) (p : Bool) : (s.setKey k p).draws = s.draws := rfl

/-! ### setQ -/

@[simp] theorem setQ_mem (c : Quirks) : (s.setQ c).mem = s.mem := rfl
@[simp] theorem setQ_v (c : Quirks) : (s.setQ c).v = s.v := rfl
@[simp] theorem setQ_i (c : Quirks) : (s.setQ c).i = s.i := rfl
@[simp] theorem setQ_pc (c : Quirks) : (s.setQ c).pc = s.pc := rfl
@[simp] theorem setQ_stack (c : Quirks) : (s.setQ c).stack = s.stack := rfl
@[simp] theorem setQ_sp (c : Quirks) : (s.setQ c).sp = s.sp := rfl
@[simp] theorem setQ_dt (c : Quirks) : (s.setQ c).dt = s.dt := rfl
@[simp] theorem setQ_st (c : Quirks) : (s.setQ c).st = s.st := rfl
@[simp] theorem setQ_disp (c : Quirks) : (s.setQ c).disp = s.disp := rfl
@[simp] theorem setQ_keys (c : Quirks) : (s.setQ c).keys = s.keys := rfl
@[simp] theorem setQ_latch (c : Quirks) : (s.setQ c).latch = s.latch := rfl
@[simp] theorem setQ_q (c : Quirks) : (s.setQ c).q = c := rfl
@[simp] theorem setQ_draws (c : Quirks) : (s.setQ c).draws = s.draws := rfl

/-! ### setPc -/

@[simp] theorem setPc_mem (w : Word) : (s.setPc w).mem = s.mem := rfl
@[simp] theorem setPc_v (w : Word) : (s.setPc w).v = s.v := rfl
@[simp] theorem setPc_i (w : Word) : (s.setPc w).i = s.i := rfl
@[simp] theorem setPc_pc (w : Word) : (s.setPc w).pc = w := rfl
@[simp] theorem setPc_stack (w : Word) : (s.setPc w).stack = s.stack := rfl
@[simp] theorem setPc_sp (w : Word) : (s.setPc w).sp = s.sp := rfl
@[simp] theorem setPc_dt (w : Word) : (s.setPc w).dt = s.dt := rfl
@[simp] theorem setPc_st (w : Word) : (s.setPc w).st = s.st := rfl
@[simp] theorem setPc_disp (w : Word) : (s.setPc w).disp = s.disp := rfl
@[simp] theorem setPc_keys (w : Word) : (s.setPc w).keys = s.keys := rfl
@[simp] theorem setPc_latch (w : Word) : (s.setPc w).latch = s.latch := rfl
@[simp] theorem setPc_q (w : Word) : (s.setPc w).q = s.q := rfl
@[simp] theorem setPc_draws (w : Word) : (s.setPc w).draws = s.draws := rfl

/-! ### advance -/

@[simp] theorem advance_mem : (s.advance).mem = s.mem := rfl
@[simp] theorem advance_v : (s.advance).v = s.v := rfl
@[simp] theorem advance_i : (s.advance).i = s.i := rfl
@[simp] theorem advance_pc : (s.advance).pc = s.pc + 2 := rfl
@[simp] theorem advance_stack : (s.advance).stack = s.stack := rfl
@[simp] theorem advance_sp : (s.advance).sp = s.sp := rfl
@[simp] theorem advance_dt : (s.advance).dt = s.dt := rfl
@[simp] theorem advance_st : (s.advance).st = s.st := rfl
@[simp] theorem advance_disp : (s.advance).disp = s.disp := rfl
@[simp] theorem advance_keys : (s.advance).keys = s.keys := rfl
@[simp] theorem advance_latch : (s.advance).latch = s.latch := rfl
@[simp] theorem advance_q : (s.advance).q = s.q := rfl
@[simp] theorem advance_draws : (s.advance).draws = s.draws := rfl

/-! ### skipIf -/

@[simp] theorem skipIf_mem (c : Bool) : (s.skipIf c).mem = s.mem := rfl
@[simp] theorem skipIf_v (c : Bool) : (s.skipIf c).v = s.v := rfl
@[simp] theorem skipIf_i (c : Bool) : (s.skipIf c).i = s.i := rfl
@[simp] theorem skipIf_pc (c : Bool) : (s.skipIf c).pc = if c then s.pc + 4 else s.pc + 2 := rfl
@[simp] theorem skipIf_stack (c : Bool) : (s.skipIf c).stack = s.stack := rfl
@[simp] theorem skipIf_sp (c : Bool) : (s.skipIf c).sp = s.sp := rfl
@[simp] theorem skipIf_dt (c : Bool) : (s.skipIf c).dt = s.dt := rfl
@[simp] theorem skipIf_st (c : Bool) : (s.skipIf c).st = s.st := rfl
@[simp] theorem skipIf_disp (c : Bool) : (s.skipIf c).disp = s.disp := rfl
@[simp] theorem skipIf_keys (c : Bool) : (s.skipIf c).keys = s.keys := rfl
@[simp] theorem skipIf_latch (c : Bool) : (s.skipIf c).latch = s.latch := rfl
@[simp] theorem skipIf_q (c : Bool) : (s.skipIf c).q = s.q := rfl
@[simp] theorem skipIf_draws (c : Bool) : (s.skipIf c).draws = s.draws := rfl

/-! ### memWrite -/

@[simp] theorem memWrite_mem (a : Word) (b : Byte) : (s.memWrite a b).mem = Memory.write s.mem (memIndex a) b := rfl
@[simp] theorem memWrite_v (a : Word) (b : Byte) : (s.memWrite a b).v = s.v := rfl
@[simp] theorem memWrite_i (a : Word) (b : Byte) : (s.memWrite a b).i = s.i := rfl
@[simp] theorem memWrite_pc (a : Word) (b : Byte) : (s.memWrite a b).pc = s.pc := rfl
@[simp] theorem memWrite_stack (a : Word) (b : Byte) : (s.memWrite a b).stack = s.stack := rfl
@[simp] theorem memWrite_sp (a : Word) (b : Byte) : (s.memWrite a b).sp = s.sp := rfl
@[simp] theorem memWrite_dt (a : Word) (b : Byte) : (s.memWrite a b).dt = s.dt := rfl
@[simp] theorem memWrite_st (a : Word) (b : Byte) : (s.memWrite a b).st = s.st := rfl
@[simp] theorem memWrite_disp (a : Word) (b : Byte) : (s.memWrite a b).disp = s.disp := rfl
@[simp] theorem memWrite_keys (a : Word) (b : Byte) : (s.memWrite a b).keys = s.keys := rfl
@[simp] theorem memWrite_latch (a : Word) (b : Byte) : (s.memWrite a b).latch = s.latch := rfl
@[simp] theorem memWrite_q (a : Word) (b : Byte) : (s.memWrite a b).q = s.q := rfl
@[simp] theorem memWrite_draws (a : Word) (b : Byte) : (s.memWrite a b).draws = s.draws := rfl

/-! ### push -/

@[simp] theorem push_mem (w : Word) : (s.push w).mem = s.mem := rfl
@[simp] theorem push_v (w : Word) : (s.push w).v = s.v := rfl
@[simp] theorem push_i (w : Word) : (s.push w).i = s.i := rfl
@[simp] theorem push_pc (w : Word) : (s.push w).pc = s.pc := rfl
@[simp] theorem push_stack (w : Word) : (s.push w).stack = s.stack.set (s.sp + 1 : Fin 16) w := rfl
@[simp] theorem push_sp (w : Word) : (s.push w).sp = s.sp + 1 := rfl
@[simp] theorem push_dt (w : Word) : (s.push w).dt = s.dt := rfl
@[simp] theorem push_st (w : Word) : (s.push w).st = s.st := rfl
@[simp] theorem push_disp (w : Word) : (s.push w).disp = s.disp := rfl
@[simp] theorem push_keys (w : Word) : (s.push w).keys = s.keys := rfl
@[simp] theorem push_latch (w : Word) : (s.push w).latch = s.latch := rfl
@[simp] theorem push_q (w : Word) : (s.push w).q = s.q := rfl
@[simp] theorem push_draws (w : Word) : (s.push w).draws = s.draws := rfl

/-! ### pop -/

@[simp] theorem pop_mem : (s.pop).mem = s.mem := rfl
@[simp] theorem pop_v : (s.pop).v = s.v := rfl
@[simp] theorem pop_i : (s.pop).i = s.i := rfl
@[simp] theorem pop_pc : (s.pop).pc = s.pc := rfl
@[simp] theorem pop_stack : (s.pop).stack = s.stack := rfl
@[simp] theorem pop_sp : (s.pop).sp = s.sp - 1 := rfl
@[simp] theorem pop_dt : (s.pop).dt = s.dt := rfl
@[simp] theorem pop_st : (s.pop).st = s.st := rfl
@[simp] theorem pop_disp : (s.pop).disp = s.disp := rfl
@[simp] theorem pop_keys : (s.pop).keys = s.keys := rfl
@[simp] theorem pop_latch : (s.pop).latch = s.latch := rfl
@[simp] theorem pop_q : (s.pop).q = s.q := rfl
@[simp] theorem pop_draws : (s.pop).draws = s.draws := rfl

/-! ### setDisp -/

@[simp] theorem setDisp_mem (d : Display) : (s.setDisp d).mem = s.mem := rfl
@[simp] theorem setDisp_v (d : Display) : (s.setDisp d).v = s.v := rfl
@[simp] theorem setDisp_i (d : Display) : (s.setDisp d).i = s.i := rfl
@[simp] theorem setDisp_pc (d : Display) : (s.setDisp d).pc = s.pc := rfl
@[simp] theorem setDisp_stack (d : Display) : (s.setDisp d).stack = s.stack := rfl
@[simp] theorem setDisp_sp (d : Display) : (s.setDisp d).sp = s.sp := rfl
@[simp] theorem setDisp_dt (d : Display) : (s.setDisp d).dt = s.dt := rfl
@[simp] theorem setDisp_st (d : Display) : (s.setDisp d).st = s.st := rfl
@[simp] theorem setDisp_disp (d : Display) : (s.setDisp d).disp = d := rfl
@[simp] theorem setDisp_keys (d : Display) : (s.setDisp d).keys = s.keys := rfl
@[simp] theorem setDisp_latch (d : Display) : (s.setDisp d).latch = s.latch := rfl
@[simp] theorem setDisp_q (d : Display) : (s.setDisp d).q = s.q := rfl
@[simp] theorem setDisp_draws (d : Display) : (s.setDisp d).draws = s.draws := rfl

/-! ### countDraw -/

@[simp] theorem countDraw_mem : (s.countDraw).mem = s.mem := rfl
@[simp] theorem countDraw_v : (s.countDraw).v = s.v := rfl
@[simp] theorem countDraw_i : (s.countDraw).i = s.i := rfl
@[simp] theorem countDraw_pc : (s.countDraw).pc = s.pc := rfl
@[simp] theorem countDraw_stack : (s.countDraw).stack = s.stack := rfl
@[simp] theorem countDraw_sp : (s.countDraw).sp = s.sp := rfl
@[simp] theorem countDraw_dt : (s.countDraw).dt = s.dt := rfl
@[simp] theorem countDraw_st : (s.countDraw).st = s.st := rfl
@[simp] theorem countDraw_disp : (s.countDraw).disp = s.disp := rfl
@[simp] theorem countDraw_keys : (s.countDraw).keys = s.keys := rfl
@[simp] theorem countDraw_latch : (s.countDraw).latch = s.latch := rfl
@[simp] theorem countDraw_q : (s.countDraw).q = s.q := rfl
@[simp] theorem countDraw_draws : (s.countDraw).draws = s.draws + 1 := rfl

/-! ### loadRegsUpTo -/

@[simp] theorem loadRegsUpTo_mem (x : Reg) : (s.loadRegsUpTo x).mem = s.mem := rfl
@[simp] theorem loadRegsUpTo_v (x : Reg) : (s.loadRegsUpTo x).v = Vector.ofFn fun j : Fin 16 => if j.val ≤ x.val then s.memRead (s.blockAddress j.val) else s.reg j := rfl
@[simp] theorem loadRegsUpTo_i (x : Reg) : (s.loadRegsUpTo x).i = s.i := rfl
@[simp] theorem loadRegsUpTo_pc (x : Reg) : (s.loadRegsUpTo x).pc = s.pc := rfl
@[simp] theorem loadRegsUpTo_stack (x : Reg) : (s.loadRegsUpTo x).stack = s.stack := rfl
@[simp] theorem loadRegsUpTo_sp (x : Reg) : (s.loadRegsUpTo x).sp = s.sp := rfl
@[simp] theorem loadRegsUpTo_dt (x : Reg) : (s.loadRegsUpTo x).dt = s.dt := rfl
@[simp] theorem loadRegsUpTo_st (x : Reg) : (s.loadRegsUpTo x).st = s.st := rfl
@[simp] theorem loadRegsUpTo_disp (x : Reg) : (s.loadRegsUpTo x).disp = s.disp := rfl
@[simp] theorem loadRegsUpTo_keys (x : Reg) : (s.loadRegsUpTo x).keys = s.keys := rfl
@[simp] theorem loadRegsUpTo_latch (x : Reg) : (s.loadRegsUpTo x).latch = s.latch := rfl
@[simp] theorem loadRegsUpTo_q (x : Reg) : (s.loadRegsUpTo x).q = s.q := rfl
@[simp] theorem loadRegsUpTo_draws (x : Reg) : (s.loadRegsUpTo x).draws = s.draws := rfl

/-! ### The reads that an update leaves alone -/

@[simp] theorem reg_setI (w : Word) (r' : Reg) : (s.setI w).reg r' = s.reg r' := rfl
@[simp] theorem reg_setDt (b : Byte) (r' : Reg) : (s.setDt b).reg r' = s.reg r' := rfl
@[simp] theorem reg_setSt (b : Byte) (r' : Reg) : (s.setSt b).reg r' = s.reg r' := rfl
@[simp] theorem reg_setLatch (l : Option Reg) (r' : Reg) : (s.setLatch l).reg r' = s.reg r' := rfl
@[simp] theorem reg_setKey (k : Fin 16) (p : Bool) (r' : Reg) : (s.setKey k p).reg r' = s.reg r' := rfl
@[simp] theorem reg_setQ (c : Quirks) (r' : Reg) : (s.setQ c).reg r' = s.reg r' := rfl
@[simp] theorem reg_setPc (w : Word) (r' : Reg) : (s.setPc w).reg r' = s.reg r' := rfl
@[simp] theorem reg_advance (r' : Reg) : (s.advance).reg r' = s.reg r' := rfl
@[simp] theorem reg_skipIf (c : Bool) (r' : Reg) : (s.skipIf c).reg r' = s.reg r' := rfl
@[simp] theorem reg_memWrite (a : Word) (b : Byte) (r' : Reg) : (s.memWrite a b).reg r' = s.reg r' := rfl
@[simp] theorem reg_push (w : Word) (r' : Reg) : (s.push w).reg r' = s.reg r' := rfl
@[simp] theorem reg_pop (r' : Reg) : (s.pop).reg r' = s.reg r' := rfl
@[simp] theorem reg_setDisp (d : Display) (r' : Reg) : (s.setDisp d).reg r' = s.reg r' := rfl
@[simp] theorem reg_countDraw (r' : Reg) : (s.countDraw).reg r' = s.reg r' := rfl

@[simp] theorem memRead_setReg (r : Reg) (b : Byte) (c : Word) : (s.setReg r b).memRead c = s.memRead c := rfl
@[simp] theorem memRead_setFlag (f : Bool) (c : Word) : (s.setFlag f).memRead c = s.memRead c := rfl
@[simp] theorem memRead_setI (w : Word) (c : Word) : (s.setI w).memRead c = s.memRead c := rfl
@[simp] theorem memRead_setDt (b : Byte) (c : Word) : (s.setDt b).memRead c = s.memRead c := rfl
@[simp] theorem memRead_setSt (b : Byte) (c : Word) : (s.setSt b).memRead c = s.memRead c := rfl
@[simp] theorem memRead_setLatch (l : Option Reg) (c : Word) : (s.setLatch l).memRead c = s.memRead c := rfl
@[simp] theorem memRead_setKey (k : Fin 16) (p : Bool) (c : Word) : (s.setKey k p).memRead c = s.memRead c := rfl
@[simp] theorem memRead_setQ (d : Quirks) (c : Word) : (s.setQ d).memRead c = s.memRead c := rfl
@[simp] theorem memRead_setPc (w : Word) (c : Word) : (s.setPc w).memRead c = s.memRead c := rfl
@[simp] theorem memRead_advance (c : Word) : (s.advance).memRead c = s.memRead c := rfl
@[simp] theorem memRead_skipIf (d : Bool) (c : Word) : (s.skipIf d).memRead c = s.memRead c := rfl
@[simp] theorem memRead_push (w : Word) (c : Word) : (s.push w).memRead c = s.memRead c := rfl
@[simp] theorem memRead_pop (c : Word) : (s.pop).memRead c = s.memRead c := rfl
@[simp] theorem memRead_setDisp (d : Display) (c : Word) : (s.setDisp d).memRead c = s.memRead c := rfl
@[simp] theorem memRead_countDraw (c : Word) : (s.countDraw).memRead c = s.memRead c := rfl
@[simp] theorem memRead_loadRegsUpTo (x : Reg) (c : Word) : (s.loadRegsUpTo x).memRead c = s.memRead c := rfl

@[simp] theorem stackEntry_setReg (r : Reg) (b : Byte) (j : Fin 16) : (s.setReg r b).stackEntry j = s.stackEntry j := rfl
@[simp] theorem stackEntry_setFlag (f : Bool) (j : Fin 16) : (s.setFlag f).stackEntry j = s.stackEntry j := rfl
@[simp] theorem stackEntry_setI (w : Word) (j : Fin 16) : (s.setI w).stackEntry j = s.stackEntry j := rfl
@[simp] theorem stackEntry_setDt (b : Byte) (j : Fin 16) : (s.setDt b).stackEntry j = s.stackEntry j := rfl
@[simp] theorem stackEntry_setSt (b : Byte) (j : Fin 16) : (s.setSt b).stackEntry j = s.stackEntry j := rfl
@[simp] theorem stackEntry_setLatch (l : Option Reg) (j : Fin 16) : (s.setLatch l).stackEntry j = s.stackEntry j := rfl
@[simp] theorem stackEntry_setKey (k : Fin 16) (p : Bool) (j : Fin 16) : (s.setKey k p).stackEntry j = s.stackEntry j := rfl
@[simp] theorem stackEntry_setQ (c : Quirks) (j : Fin 16) : (s.setQ c).stackEntry j = s.stackEntry j := rfl
@[simp] theorem stackEntry_setPc (w : Word) (j : Fin 16) : (s.setPc w).stackEntry j = s.stackEntry j := rfl
@[simp] theorem stackEntry_advance (j : Fin 16) : (s.advance).stackEntry j = s.stackEntry j := rfl
@[simp] theorem stackEntry_skipIf (c : Bool) (j : Fin 16) : (s.skipIf c).stackEntry j = s.stackEntry j := rfl
@[simp] theorem stackEntry_memWrite (a : Word) (b : Byte) (j : Fin 16) : (s.memWrite a b).stackEntry j = s.stackEntry j := rfl
@[simp] theorem stackEntry_pop (j : Fin 16) : (s.pop).stackEntry j = s.stackEntry j := rfl
@[simp] theorem stackEntry_setDisp (d : Display) (j : Fin 16) : (s.setDisp d).stackEntry j = s.stackEntry j := rfl
@[simp] theorem stackEntry_countDraw (j : Fin 16) : (s.countDraw).stackEntry j = s.stackEntry j := rfl
@[simp] theorem stackEntry_loadRegsUpTo (x : Reg) (j : Fin 16) : (s.loadRegsUpTo x).stackEntry j = s.stackEntry j := rfl

@[simp] theorem key_setReg (r : Reg) (b : Byte) (k' : Fin 16) : (s.setReg r b).key k' = s.key k' := rfl
@[simp] theorem key_setFlag (f : Bool) (k' : Fin 16) : (s.setFlag f).key k' = s.key k' := rfl
@[simp] theorem key_setI (w : Word) (k' : Fin 16) : (s.setI w).key k' = s.key k' := rfl
@[simp] theorem key_setDt (b : Byte) (k' : Fin 16) : (s.setDt b).key k' = s.key k' := rfl
@[simp] theorem key_setSt (b : Byte) (k' : Fin 16) : (s.setSt b).key k' = s.key k' := rfl
@[simp] theorem key_setLatch (l : Option Reg) (k' : Fin 16) : (s.setLatch l).key k' = s.key k' := rfl
@[simp] theorem key_setQ (c : Quirks) (k' : Fin 16) : (s.setQ c).key k' = s.key k' := rfl
@[simp] theorem key_setPc (w : Word) (k' : Fin 16) : (s.setPc w).key k' = s.key k' := rfl
@[simp] theorem key_advance (k' : Fin 16) : (s.advance).key k' = s.key k' := rfl
@[simp] theorem key_skipIf (c : Bool) (k' : Fin 16) : (s.skipIf c).key k' = s.key k' := rfl
@[simp] theorem key_memWrite (a : Word) (b : Byte) (k' : Fin 16) : (s.memWrite a b).key k' = s.key k' := rfl
@[simp] theorem key_push (w : Word) (k' : Fin 16) : (s.push w).key k' = s.key k' := rfl
@[simp] theorem key_pop (k' : Fin 16) : (s.pop).key k' = s.key k' := rfl
@[simp] theorem key_setDisp (d : Display) (k' : Fin 16) : (s.setDisp d).key k' = s.key k' := rfl
@[simp] theorem key_countDraw (k' : Fin 16) : (s.countDraw).key k' = s.key k' := rfl
@[simp] theorem key_loadRegsUpTo (x : Reg) (k' : Fin 16) : (s.loadRegsUpTo x).key k' = s.key k' := rfl

end Sys2Proof.Machine.State
end

