-- ==== Sys2Proof/Laws/Memory.lean ====
section
/-! SUPPORT. The laws of the memory list: a read after a write, and that a write keeps the canonical form. -/

namespace Sys2Proof.Machine.Memory

/-- A canonical list from a bound is one from any lower bound. -/
theorem wfFrom_mono {lo lo' : Nat} (h : lo' ≤ lo) : ∀ {m : Memory}, wfFrom lo m = true → wfFrom lo' m = true
  | [], _ => rfl
  | (a, v) :: m, hm => by
    simp only [wfFrom, Bool.and_eq_true, decide_eq_true_eq] at hm ⊢
    exact ⟨⟨⟨h.trans hm.1.1.1, hm.1.1.2⟩, hm.1.2⟩, hm.2⟩

/-- The parts of the canonical form of a non-empty list. -/
theorem wfFrom_cons {lo a : Nat} {v : Byte} {m : Memory} :
    wfFrom lo ((a, v) :: m) = true ↔ lo ≤ a ∧ a < 4096 ∧ v ≠ unlisted a ∧ wfFrom (a + 1) m = true := by
  simp [wfFrom, and_assoc]

/-- Below every listed address a read gives what an unlisted address reads as. -/
theorem read_below {lo a : Nat} (ha : a < lo) : ∀ {m : Memory}, wfFrom lo m = true → read m a = unlisted a
  | [], _ => rfl
  | (b, w) :: m, hm => by
    obtain ⟨hb, -, -, hm⟩ := wfFrom_cons.1 hm
    rw [read, if_neg (by omega), read_below (by omega) hm]

/-- Reading through the cell of one byte. -/
theorem read_cell_append {lo a b : Nat} {v : Byte} {m : Memory} (ha : a < lo) (hm : wfFrom lo m = true) :
    read (cell a v ++ m) b = if b = a then v else read m b := by
  by_cases hv : v = unlisted a
  · by_cases hb : b = a
    · subst hb; simp [cell, hv, read_below ha hm]
    · simp [cell, hv, hb]
  · simp [cell, hv, read, eq_comm]

/-- A read after a write: the byte written at its address, what was there everywhere else. -/
theorem read_write {a b : Nat} {v : Byte} :
    ∀ {m : Memory} {lo : Nat}, wfFrom lo m = true → read (write m a v) b = if b = a then v else read m b
  | [], lo, _ => by simpa [write] using read_cell_append (m := []) (b := b) (v := v) (Nat.lt_succ_self a) rfl
  | (c, w) :: m, lo, hm => by
    obtain ⟨hc, hlt, hw, hm⟩ := wfFrom_cons.1 hm
    rw [write]
    split
    · rename_i hac
      exact read_cell_append (lo := c) hac (wfFrom_cons.2 ⟨le_refl c, hlt, hw, hm⟩)
    · split
      · rename_i _ hac
        subst hac
        rw [read_cell_append (lo := a + 1) (by omega) hm]
        by_cases hb : b = a
        · simp [hb]
        · simp [hb, read, Ne.symm hb]
      · rename_i h1 h2
        rw [read, read_write hm, read]
        by_cases hb : b = a
        · subst hb; simp [Ne.symm h2]
        · simp [hb]

/-- The cell of one byte before a canonical list is canonical. -/
theorem wfFrom_cell_append {lo a : Nat} {v : Byte} {m : Memory} (hlo : lo ≤ a) (ha : a < 4096)
    (hm : wfFrom (a + 1) m = true) : wfFrom lo (cell a v ++ m) = true := by
  by_cases hv : v = unlisted a
  · simpa [cell, hv] using wfFrom_mono (by omega) hm
  · simpa [cell, hv] using wfFrom_cons.2 ⟨hlo, ha, hv, hm⟩

/-- A write keeps the canonical form. -/
theorem wfFrom_write {a : Nat} {v : Byte} (ha : a < 4096) :
    ∀ {m : Memory} {lo : Nat}, lo ≤ a → wfFrom lo m = true → wfFrom lo (write m a v) = true
  | [], lo, hlo, _ => by simpa [write] using wfFrom_cell_append (v := v) (m := []) hlo ha rfl
  | (c, w) :: m, lo, hlo, hm => by
    obtain ⟨hc, hlt, hw, hm⟩ := wfFrom_cons.1 hm
    rw [write]
    split
    · exact wfFrom_cell_append hlo ha (wfFrom_cons.2 ⟨by omega, hlt, hw, hm⟩)
    · split
      · rename_i _ hac
        subst hac
        exact wfFrom_cell_append hlo ha hm
      · exact wfFrom_cons.2 ⟨hc, hlt, hw, wfFrom_write ha (by omega) hm⟩

/-- A write below 4096 keeps the canonical form. -/
theorem wf_write {m : Memory} {a : Nat} {v : Byte} (ha : a < 4096) (hm : wf m = true) : wf (write m a v) = true :=
  wfFrom_write ha (Nat.zero_le a) hm

end Sys2Proof.Machine.Memory
end

