-- ==== Sys2Proof/Laws/Ops.lean ====
section
/-! SUPPORT. One lemma per shared operation that says what it can do: register, stack, display and memory accesses, and the
store of a list of bytes. -/

namespace Sys2Proof.Machine

/-! ## Frames -/

/-- Nothing differs from a state to itself. -/
theorem SameBut.refl (parts : List StatePart) (s : State) : SameBut parts s s := by
  intro p _
  cases p <;> simp [StatePart.Same]

/-- Frames compose. -/
theorem SameBut.trans {parts : List StatePart} {s t u : State} (h : SameBut parts s t) (h' : SameBut parts t u) :
    SameBut parts s u := by
  intro p hp
  have a := h p hp
  have b := h' p hp
  cases p <;> simp_all [StatePart.Same]

/-! ## Registers -/

/-- A register after a write to one. -/
@[simp] theorem State.reg_setReg (s : State) (r r' : Reg) (b : Byte) :
    (s.setReg r b).reg r' = if r' = r then b else s.reg r' := by
  simp [State.reg, Vector.getElem_set, Fin.ext_iff, eq_comm]

/-- A register after the flag is written. -/
@[simp] theorem State.reg_setFlag (s : State) (r : Reg) (f : Bool) :
    (s.setFlag f).reg r = if r = VF then (if f then 1 else 0) else s.reg r :=
  s.reg_setReg VF r _

/-- A register after a block load. -/
@[simp] theorem State.reg_loadRegsUpTo (s : State) (x r : Reg) :
    (s.loadRegsUpTo x).reg r = if r.val ≤ x.val then s.memRead (s.blockAddress r.val) else s.reg r := by
  simp [State.reg]

/-- The logic operations' flag: VF cleared under VFReset, and nothing else. -/
theorem State.logicFlag_eq (s : State) : s.logicFlag = s ∨ (s.q.vfReset = true ∧ s.logicFlag = s.setFlag false) := by
  unfold State.logicFlag; split <;> simp_all

/-- A register after the logic operations' flag. -/
@[simp] theorem State.reg_logicFlag (s : State) (r : Reg) :
    s.logicFlag.reg r = if s.q.vfReset = true ∧ r = VF then 0 else s.reg r := by
  unfold State.logicFlag; split <;> simp_all

@[simp] theorem State.logicFlag_mem (s : State) : s.logicFlag.mem = s.mem := by
  unfold State.logicFlag; split <;> rfl

@[simp] theorem State.logicFlag_i (s : State) : s.logicFlag.i = s.i := by
  unfold State.logicFlag; split <;> rfl

@[simp] theorem State.logicFlag_pc (s : State) : s.logicFlag.pc = s.pc := by
  unfold State.logicFlag; split <;> rfl

@[simp] theorem State.logicFlag_stack (s : State) : s.logicFlag.stack = s.stack := by
  unfold State.logicFlag; split <;> rfl

@[simp] theorem State.logicFlag_sp (s : State) : s.logicFlag.sp = s.sp := by
  unfold State.logicFlag; split <;> rfl

@[simp] theorem State.logicFlag_dt (s : State) : s.logicFlag.dt = s.dt := by
  unfold State.logicFlag; split <;> rfl

@[simp] theorem State.logicFlag_st (s : State) : s.logicFlag.st = s.st := by
  unfold State.logicFlag; split <;> rfl

@[simp] theorem State.logicFlag_disp (s : State) : s.logicFlag.disp = s.disp := by
  unfold State.logicFlag; split <;> rfl

@[simp] theorem State.logicFlag_keys (s : State) : s.logicFlag.keys = s.keys := by
  unfold State.logicFlag; split <;> rfl

@[simp] theorem State.logicFlag_latch (s : State) : s.logicFlag.latch = s.latch := by
  unfold State.logicFlag; split <;> rfl

@[simp] theorem State.logicFlag_q (s : State) : s.logicFlag.q = s.q := by
  unfold State.logicFlag; split <;> rfl

@[simp] theorem State.logicFlag_draws (s : State) : s.logicFlag.draws = s.draws := by
  unfold State.logicFlag; split <;> rfl

@[simp] theorem State.memRead_logicFlag (s : State) (a : Word) : s.logicFlag.memRead a = s.memRead a := by
  unfold State.logicFlag; split <;> rfl

@[simp] theorem State.stackEntry_logicFlag (s : State) (j : Fin 16) : s.logicFlag.stackEntry j = s.stackEntry j := by
  unfold State.logicFlag; split <;> rfl

@[simp] theorem State.key_logicFlag (s : State) (k : Fin 16) : s.logicFlag.key k = s.key k := by
  unfold State.logicFlag; split <;> rfl

/-- Two states with equal registers answer equal register reads. -/
theorem State.reg_congr {s t : State} (h : t.v = s.v) (r : Reg) : t.reg r = s.reg r := by
  simp [State.reg, h]

/-! ## The stack -/

/-- The stack after a push. -/
@[simp] theorem State.stackEntry_push (s : State) (w : Word) (j : Fin 16) :
    (s.push w).stackEntry j = if j = s.sp + 1 then w else s.stackEntry j := by
  simp only [State.stackEntry, State.push_stack, Fin.getElem_fin, Vector.getElem_set, Fin.ext_iff, eq_comm]

/-- A pop after a push returns the value pushed. -/
theorem State.top_push (s : State) (w : Word) : (s.push w).top = w := by
  simp [State.top]

/-! ## Memory -/

/-- The cell an address selects exists. -/
theorem memIndex_lt (a : Word) : memIndex a < 4096 := Nat.mod_lt _ (by decide)

/-- Two states with equal memories answer equal reads. -/
theorem State.memRead_congr {s t : State} (h : t.mem = s.mem) (a : Word) : t.memRead a = s.memRead a := by
  simp [State.memRead, h]

/-- One byte written keeps the canonical form. -/
theorem State.Inv.memWrite {s : State} (h : s.Inv) (a : Word) (b : Byte) : (s.memWrite a b).Inv :=
  Memory.wf_write (memIndex_lt a) h

/-- A read after one byte is written. -/
theorem State.memRead_memWrite {s : State} (h : s.Inv) (a c : Word) (b : Byte) :
    (s.memWrite a b).memRead c = if memIndex c = memIndex a then b else s.memRead c :=
  Memory.read_write h

/-- A store of bytes changes nothing but memory. -/
theorem State.memWriteList_eq (bs : List Byte) : ∀ (s : State) (a : Word),
    s.memWriteList a bs = { s with mem := (s.memWriteList a bs).mem } := by
  induction bs with
  | nil => intro s a; rfl
  | cons b bs ih => intro s a; rw [State.memWriteList, ih]; rfl

@[simp] theorem State.memWriteList_v (s : State) (a : Word) (bs : List Byte) :
    (s.memWriteList a bs).v = s.v := by rw [State.memWriteList_eq]

@[simp] theorem State.memWriteList_i (s : State) (a : Word) (bs : List Byte) :
    (s.memWriteList a bs).i = s.i := by rw [State.memWriteList_eq]

@[simp] theorem State.memWriteList_pc (s : State) (a : Word) (bs : List Byte) :
    (s.memWriteList a bs).pc = s.pc := by rw [State.memWriteList_eq]

@[simp] theorem State.memWriteList_stack (s : State) (a : Word) (bs : List Byte) :
    (s.memWriteList a bs).stack = s.stack := by rw [State.memWriteList_eq]

@[simp] theorem State.memWriteList_sp (s : State) (a : Word) (bs : List Byte) :
    (s.memWriteList a bs).sp = s.sp := by rw [State.memWriteList_eq]

@[simp] theorem State.memWriteList_dt (s : State) (a : Word) (bs : List Byte) :
    (s.memWriteList a bs).dt = s.dt := by rw [State.memWriteList_eq]

@[simp] theorem State.memWriteList_st (s : State) (a : Word) (bs : List Byte) :
    (s.memWriteList a bs).st = s.st := by rw [State.memWriteList_eq]

@[simp] theorem State.memWriteList_disp (s : State) (a : Word) (bs : List Byte) :
    (s.memWriteList a bs).disp = s.disp := by rw [State.memWriteList_eq]

@[simp] theorem State.memWriteList_keys (s : State) (a : Word) (bs : List Byte) :
    (s.memWriteList a bs).keys = s.keys := by rw [State.memWriteList_eq]

@[simp] theorem State.memWriteList_latch (s : State) (a : Word) (bs : List Byte) :
    (s.memWriteList a bs).latch = s.latch := by rw [State.memWriteList_eq]

@[simp] theorem State.memWriteList_q (s : State) (a : Word) (bs : List Byte) :
    (s.memWriteList a bs).q = s.q := by rw [State.memWriteList_eq]

@[simp] theorem State.memWriteList_draws (s : State) (a : Word) (bs : List Byte) :
    (s.memWriteList a bs).draws = s.draws := by rw [State.memWriteList_eq]

@[simp] theorem State.reg_memWriteList (s : State) (a : Word) (bs : List Byte) (r : Reg) :
    (s.memWriteList a bs).reg r = s.reg r := by rw [State.memWriteList_eq]; rfl

@[simp] theorem State.stackEntry_memWriteList (s : State) (a : Word) (bs : List Byte) (j : Fin 16) :
    (s.memWriteList a bs).stackEntry j = s.stackEntry j := by rw [State.memWriteList_eq]; rfl

@[simp] theorem State.key_memWriteList (s : State) (a : Word) (bs : List Byte) (k : Fin 16) :
    (s.memWriteList a bs).key k = s.key k := by rw [State.memWriteList_eq]; rfl

/-- A store of bytes keeps the canonical form. -/
theorem State.Inv.memWriteList (bs : List Byte) : ∀ {s : State} (a : Word), s.Inv → (s.memWriteList a bs).Inv := by
  induction bs with
  | nil => intro s a h; exact h
  | cons b bs ih => intro s a h; exact ih _ (h.memWrite a b)

/-- The address after the next is the next but one. -/
theorem address_succ (a : Word) (k : Nat) : a + 1 + BitVec.ofNat 16 k = a + BitVec.ofNat 16 (k + 1) := by
  apply BitVec.eq_of_toNat_eq
  have one : (1 : Word).toNat = 1 := rfl
  simp only [BitVec.toNat_add, BitVec.toNat_ofNat, one]
  omega

/-- An address no byte of a store selects reads as before. -/
theorem State.memRead_memWriteList_of_ne {c : Word} (bs : List Byte) : ∀ {s : State} {a : Word}, s.Inv →
    (∀ k, k < bs.length → memIndex c ≠ memIndex (a + BitVec.ofNat 16 k)) →
    (s.memWriteList a bs).memRead c = s.memRead c := by
  induction bs with
  | nil => intro s a _ _; rfl
  | cons b bs ih =>
    intro s a h hc
    have h0 : memIndex c ≠ memIndex a := by simpa using hc 0 (by simp)
    rw [State.memWriteList, ih (h.memWrite a b), State.memRead_memWrite h, if_neg h0]
    intro k hk
    have := hc (k + 1) (by simpa using hk)
    rwa [address_succ]

/-- Addresses of a block of at most 4096 bytes select different cells. -/
theorem memIndex_block_inj {a : Word} {j k : Nat} (hj : j < 4096) (hk : k < 4096)
    (h : memIndex (a + BitVec.ofNat 16 j) = memIndex (a + BitVec.ofNat 16 k)) : j = k := by
  simp only [memIndex, Config.memSize, BitVec.toNat_add, BitVec.toNat_ofNat] at h
  omega

/-- The k-th byte of a store is read back at the k-th address. -/
theorem State.memRead_memWriteList (bs : List Byte) : ∀ {s : State} {a : Word} {k : Nat}, s.Inv → bs.length ≤ 4096 →
    (hk : k < bs.length) → (s.memWriteList a bs).memRead (a + BitVec.ofNat 16 k) = bs[k] := by
  induction bs with
  | nil => intro s a k _ _ hk; simp at hk
  | cons b bs ih =>
    intro s a k h hlen hk
    rw [State.memWriteList]
    simp only [List.length_cons] at hlen hk
    cases k with
    | zero =>
      rw [memRead_memWriteList_of_ne bs (h.memWrite a b), State.memRead_memWrite h]
      · simp
      · intro j hj hEq
        rw [address_succ] at hEq
        exact absurd (memIndex_block_inj (by omega) (by omega) hEq) (by omega)
    | succ k =>
      rw [← address_succ]
      simpa using ih (h.memWrite a b) (by omega) (by omega)

/-! ## The block of registers (43_index_memory.md R144) -/

/-- V[0] to V[X] are X + 1 bytes. -/
@[simp] theorem State.regsUpTo_length (s : State) (x : Reg) : (s.regsUpTo x).length = x.val + 1 := by
  simp only [State.regsUpTo, List.length_take, Vector.length_toList]; omega

/-- The k-th byte of the block is V[k]. -/
theorem State.regsUpTo_getElem (s : State) (x : Reg) (k : Nat) (h : k < (s.regsUpTo x).length) :
    (s.regsUpTo x)[k] = s.reg ⟨k, by rw [State.regsUpTo_length] at h; omega⟩ := by
  simp [State.regsUpTo, State.reg]

/-! ## The display -/

/-- A pixel after one is toggled. -/
@[simp] theorem Display.pixel_toggle (d : Display) (x x' : Fin 64) (y y' : Fin 32) :
    (d.toggle x y).pixel x' y' = if x' = x ∧ y' = y then !d.pixel x' y' else d.pixel x' y' := by
  simp only [Display.pixel, Display.toggle, Fin.getElem_fin, Vector.getElem_set, Fin.ext_iff]
  by_cases hy : y.val = y'.val
  · by_cases hx : x.val = x'.val
    · simp [hx, hy]
    · simp [hx, hy, Ne.symm hx]
  · simp [hy, Ne.symm hy]

/-- Every pixel of the cleared display is 0. -/
@[simp] theorem Display.pixel_clear (x : Fin 64) (y : Fin 32) : Display.clear.pixel x y = false := by
  simp [Display.pixel, Display.clear]

/-! ## Keys -/

/-- A key flag after one is written. -/
@[simp] theorem State.key_setKey (s : State) (k k' : Fin 16) (p : Bool) :
    (s.setKey k p).key k' = if k' = k then p else s.key k' := by
  simp [State.key, Vector.getElem_set, Fin.ext_iff, eq_comm]

end Sys2Proof.Machine
end

