-- ==== Sys2Proof/Laws/PerInstr.lean ====
section
/-! SUPPORT. Per-instruction lemmas. The family EncodeRow: the word of an instruction has, under its row's mask, its row's
match (spec/30_encoding.md R72). -/

namespace Sys2Proof.Laws.EncodeRow

/-- The encoded word lies in the instruction's row of the opcode table. -/
def Statement (i : Instr) : Prop := encode i &&& i.rowMask = i.rowMatch

/-- A row of the form FNNN. -/
theorem row_FNNN (f : BitVec 4) (nnn : Addr) : wordFNNN f nnn &&& 0xF000#16 = BitVec.ofNat 16 (f.toNat * 4096) := by
  apply BitVec.eq_of_toNat_eq
  rw [and_F000, wordFNNN_toNat, BitVec.toNat_ofNat]; omega

/-- A row of the form FXKK. -/
theorem row_FXKK (f : BitVec 4) (x : Reg) (kk : Byte) :
    wordFXKK f x kk &&& 0xF000#16 = BitVec.ofNat 16 (f.toNat * 4096) := by
  apply BitVec.eq_of_toNat_eq
  rw [and_F000, wordFXKK_toNat, BitVec.toNat_ofNat]; omega

/-- A row of the form FXYN with N an operand. -/
theorem row_FXYN (f : BitVec 4) (x y : Reg) (n : Fin 16) :
    wordFXYN f x y n &&& 0xF000#16 = BitVec.ofNat 16 (f.toNat * 4096) := by
  apply BitVec.eq_of_toNat_eq
  rw [and_F000, wordFXYN_toNat, BitVec.toNat_ofNat]; omega

/-- A row of the form FXYn with n fixed. -/
theorem row_FXY (f : BitVec 4) (x y : Reg) (n : Fin 16) :
    wordFXYN f x y n &&& 0xF00F#16 = BitVec.ofNat 16 (f.toNat * 4096 + n.val) := by
  apply BitVec.eq_of_toNat_eq
  rw [and_F00F, wordFXYN_toNat, BitVec.toNat_ofNat]; omega

/-- A row of the form FXkk with kk fixed. -/
theorem row_FX (f : BitVec 4) (x : Reg) (kk : Byte) :
    wordFXKK f x kk &&& 0xF0FF#16 = BitVec.ofNat 16 (f.toNat * 4096 + kk.toNat) := by
  apply BitVec.eq_of_toNat_eq
  rw [and_F0FF, wordFXKK_toNat, BitVec.toNat_ofNat]; omega

theorem sys (nnn : Addr) : Statement (.sys nnn) := row_FNNN _ _
theorem cls : Statement .cls := rfl
theorem ret : Statement .ret := rfl
theorem jp (nnn : Addr) : Statement (.jp nnn) := row_FNNN _ _
theorem call (nnn : Addr) : Statement (.call nnn) := row_FNNN _ _
theorem seImm (x : Reg) (kk : Byte) : Statement (.seImm x kk) := row_FXKK _ _ _
theorem sneImm (x : Reg) (kk : Byte) : Statement (.sneImm x kk) := row_FXKK _ _ _
theorem seReg (x y : Reg) : Statement (.seReg x y) := row_FXY _ _ _ _
theorem ldImm (x : Reg) (kk : Byte) : Statement (.ldImm x kk) := row_FXKK _ _ _
theorem addImm (x : Reg) (kk : Byte) : Statement (.addImm x kk) := row_FXKK _ _ _
theorem ldReg (x y : Reg) : Statement (.ldReg x y) := row_FXY _ _ _ _
theorem orReg (x y : Reg) : Statement (.orReg x y) := row_FXY _ _ _ _
theorem andReg (x y : Reg) : Statement (.andReg x y) := row_FXY _ _ _ _
theorem xorReg (x y : Reg) : Statement (.xorReg x y) := row_FXY _ _ _ _
theorem addReg (x y : Reg) : Statement (.addReg x y) := row_FXY _ _ _ _
theorem sub (x y : Reg) : Statement (.sub x y) := row_FXY _ _ _ _
theorem shr (x y : Reg) : Statement (.shr x y) := row_FXY _ _ _ _
theorem subn (x y : Reg) : Statement (.subn x y) := row_FXY _ _ _ _
theorem shl (x y : Reg) : Statement (.shl x y) := row_FXY _ _ _ _
theorem sneReg (x y : Reg) : Statement (.sneReg x y) := row_FXY _ _ _ _
theorem ldI (nnn : Addr) : Statement (.ldI nnn) := row_FNNN _ _
theorem jpV0 (nnn : Addr) : Statement (.jpV0 nnn) := row_FNNN _ _
theorem rnd (x : Reg) (kk : Byte) : Statement (.rnd x kk) := row_FXKK _ _ _
theorem drw (x y : Reg) (n : Fin 16) : Statement (.drw x y n) := row_FXYN _ _ _ _
theorem skp (x : Reg) : Statement (.skp x) := row_FX _ _ _
theorem sknp (x : Reg) : Statement (.sknp x) := row_FX _ _ _
theorem ldVxDt (x : Reg) : Statement (.ldVxDt x) := row_FX _ _ _
theorem ldVxK (x : Reg) : Statement (.ldVxK x) := row_FX _ _ _
theorem ldDtVx (x : Reg) : Statement (.ldDtVx x) := row_FX _ _ _
theorem ldStVx (x : Reg) : Statement (.ldStVx x) := row_FX _ _ _
theorem addI (x : Reg) : Statement (.addI x) := row_FX _ _ _
theorem ldF (x : Reg) : Statement (.ldF x) := row_FX _ _ _
theorem ldB (x : Reg) : Statement (.ldB x) := row_FX _ _ _
theorem storeRegs (x : Reg) : Statement (.storeRegs x) := row_FX _ _ _
theorem loadRegs (x : Reg) : Statement (.loadRegs x) := row_FX _ _ _

end Sys2Proof.Laws.EncodeRow
end

