-- ==== Sys2Proof/Laws/Screen.lean ====
section
/-! SUPPORT. What drawing does to the screen: one set bit, one row, a whole sprite (spec/44_display.md R162). Each toggles a
set of pixels once and sets the flag exactly when one of them was lit. -/

namespace Sys2Proof.Machine.Drawing

/-- From `d` to `d'` exactly the pixels of `C` are toggled, and the flag is set exactly when one of them was lit or it was
set before. -/
structure Toggles (C : Fin 64 → Fin 32 → Prop) (d d' : Drawing) : Prop where
  /-- A pixel of the set is toggled. -/
  on : ∀ x y, C x y → d'.disp.pixel x y = !d.disp.pixel x y
  /-- Any other pixel keeps its value. -/
  off : ∀ x y, ¬ C x y → d'.disp.pixel x y = d.disp.pixel x y
  /-- The collision flag. -/
  hit : d'.hit = true ↔ d.hit = true ∨ ∃ x y, C x y ∧ d.disp.pixel x y = true

/-- Nothing toggled. -/
theorem Toggles.none (d : Drawing) : Toggles (fun _ _ => False) d d :=
  ⟨fun _ _ h => h.elim, fun _ _ _ => rfl, by simp⟩

/-- Two sets toggled one after the other, with no pixel in both. -/
theorem Toggles.trans {C C' : Fin 64 → Fin 32 → Prop} {d d' d'' : Drawing} (h : Toggles C d d') (h' : Toggles C' d' d'')
    (disjoint : ∀ x y, C x y → ¬ C' x y) : Toggles (fun x y => C x y ∨ C' x y) d d'' where
  on x y hc := by
    rcases hc with hc | hc
    · rw [h'.off x y (disjoint x y hc), h.on x y hc]
    · rw [h'.on x y hc, h.off x y fun hc' => disjoint x y hc' hc]
  off x y hc := by
    rw [h'.off x y fun hc' => hc (.inr hc'), h.off x y fun hc' => hc (.inl hc')]
  hit := by
    rw [h'.hit, h.hit]
    constructor
    · rintro ((hd | ⟨x, y, hc, hp⟩) | ⟨x, y, hc, hp⟩)
      · exact .inl hd
      · exact .inr ⟨x, y, .inl hc, hp⟩
      · exact .inr ⟨x, y, .inr hc, by rwa [h.off x y fun hc' => disjoint x y hc' hc] at hp⟩
    · rintro (hd | ⟨x, y, hc | hc, hp⟩)
      · exact .inl (.inl hd)
      · exact .inl (.inr ⟨x, y, hc, hp⟩)
      · exact .inr ⟨x, y, hc, by rwa [h.off x y fun hc' => disjoint x y hc' hc]⟩

/-- The same set under another name. -/
theorem Toggles.congr {C C' : Fin 64 → Fin 32 → Prop} {d d' : Drawing} (h : Toggles C d d') (e : ∀ x y, C x y ↔ C' x y) :
    Toggles C' d d' := by
  obtain rfl : C = C' := funext fun x => funext fun y => propext (e x y)
  exact h

/-- Where a bit at px, py lands: exactly there with Clipping, modulo the screen without it (R163). -/
def Lands (clipping : Bool) (px py : Nat) (x : Fin 64) (y : Fin 32) : Prop :=
  if clipping then x.val = px ∧ y.val = py else x.val = px % 64 ∧ y.val = py % 32

/-- One set bit toggles the pixel it lands on, if it lands on one. -/
theorem plot_toggles (clipping : Bool) (px py : Nat) (d : Drawing) :
    Toggles (Lands clipping px py) d (d.plot clipping px py) := by
  unfold plot
  split
  · rename_i h
    simp only [Bool.and_eq_true, Bool.or_eq_true, decide_eq_true_eq, Config.columns, Config.rows] at h
    refine (Toggles.none d).congr fun x y => ?_
    have := x.isLt; have := y.isLt
    simp only [Lands, h.1, if_true, false_iff]
    omega
  · rename_i h
    have key : ∀ x y, Lands clipping px py x y ↔ x = Fin.ofNat 64 px ∧ y = Fin.ofNat 32 py := by
      intro x y
      have := x.isLt; have := y.isLt
      simp only [Bool.and_eq_true, Bool.or_eq_true, decide_eq_true_eq, Config.columns, Config.rows] at h
      simp only [Lands, Fin.ext_iff, Fin.ofNat]
      split
      · rename_i hc
        simp only [hc, true_and] at h
        omega
      · rfl
    refine ⟨fun x y hc => ?_, fun x y hc => ?_, ?_⟩
    · simp [(key x y).1 hc]
    · exact (Display.pixel_toggle _ _ _ _ _).trans (if_neg ((key x y).not.1 hc))
    · simp only [Bool.or_eq_true]
      refine or_congr_right ⟨fun hp => ⟨_, _, (key _ _).2 ⟨rfl, rfl⟩, hp⟩, ?_⟩
      rintro ⟨x, y, hc, hp⟩
      obtain ⟨rfl, rfl⟩ := (key x y).1 hc
      exact hp

/-- The first k columns of a row toggle the pixels their set bits land on. -/
theorem columns_toggle (clipping : Bool) (px py : Nat) (b : Byte) (d : Drawing) : ∀ k, k ≤ 8 →
    Toggles (fun x y => ∃ c, c < k ∧ b.getLsbD (7 - c) = true ∧ Lands clipping (px + c) py x y) d
      ((List.range k).foldl (fun d c => if b.getLsbD (7 - c) then d.plot clipping (px + c) py else d) d)
  | 0, _ => (Toggles.none d).congr fun x y => by simp
  | k + 1, hk => by
    rw [List.range_succ, List.foldl_append, List.foldl_cons, List.foldl_nil]
    have ih := columns_toggle clipping px py b d k (by omega)
    split
    · rename_i hb
      refine (ih.trans (plot_toggles clipping (px + k) py _) ?_).congr fun x y => ?_
      · rintro x y ⟨c, hc, -, hl⟩ hl'
        revert hl hl'
        simp only [Lands]
        split <;> omega
      · constructor
        · rintro (⟨c, hc, h⟩ | h)
          · exact ⟨c, by omega, h⟩
          · exact ⟨k, by omega, hb, h⟩
        · rintro ⟨c, hc, h, hl⟩
          rcases Nat.lt_succ_iff_lt_or_eq.1 hc with hc | rfl
          · exact .inl ⟨c, hc, h, hl⟩
          · exact .inr hl
    · rename_i hb
      refine ih.congr fun x y => ⟨fun ⟨c, hc, h⟩ => ⟨c, by omega, h⟩, ?_⟩
      rintro ⟨c, hc, h, hl⟩
      rcases Nat.lt_succ_iff_lt_or_eq.1 hc with hc | rfl
      · exact ⟨c, hc, h, hl⟩
      · exact absurd h hb

end Sys2Proof.Machine.Drawing

namespace Sys2Proof.Machine

/-- The first k rows of a sprite toggle the pixels its set bits land on. -/
theorem State.rows_toggle (s : State) (x0 y0 : Nat) (d : Drawing) : ∀ k, k ≤ 16 →
    Drawing.Toggles (SpriteCovers s x0 y0 k) d
      ((List.range k).foldl (fun d r => d.row s.q.clipping x0 (y0 + r) (s.memRead (s.blockAddress r))) d)
  | 0, _ => (Drawing.Toggles.none d).congr fun x y => by simp [SpriteCovers]
  | k + 1, hk => by
    rw [List.range_succ, List.foldl_append, List.foldl_cons, List.foldl_nil]
    refine ((State.rows_toggle s x0 y0 d k (by omega)).trans
      (Drawing.columns_toggle s.q.clipping x0 (y0 + k) _ _ 8 le_rfl) ?_).congr fun x y => ?_
    · rintro x y ⟨r, c, hr, hc, -, hl⟩ ⟨c', hc', -, hl'⟩
      revert hl hl'
      simp only [Drawing.Lands]
      split <;> omega
    · constructor
      · rintro (⟨r, c, hr, h⟩ | ⟨c, hc, hb, hl⟩)
        · exact ⟨r, c, by omega, h⟩
        · exact ⟨k, c, by omega, hc, hb, hl⟩
      · rintro ⟨r, c, hr, hc, hb, hl⟩
        rcases Nat.lt_succ_iff_lt_or_eq.1 hr with hr | rfl
        · exact .inl ⟨r, c, hr, hc, hb, hl⟩
        · exact .inr ⟨c, hc, hb, hl⟩

/-- A sprite toggles the pixels it covers and sets the flag exactly when one of them was lit. -/
theorem State.drawSprite_toggles (s : State) (x0 y0 : Nat) (n : Fin 16) :
    Drawing.Toggles (SpriteCovers s x0 y0 n.val) { disp := s.disp, hit := false } (s.drawSprite x0 y0 n.val) :=
  s.rows_toggle x0 y0 _ n.val (by omega)

end Sys2Proof.Machine
end

