-- ==== Sys2Proof/Laws/Step.lean ====
section
/-! SUPPORT. What one cycle can do (spec/40_cycle.md R90), and that the operations behind a fetch agree. -/

namespace Sys2Proof.Machine

variable {run : Instr → State → Result} {s t : State}

/-- A latched cycle answers the state it started in. -/
theorem gatedCycle_latched {r : Reg} (h : s.latch = some r) : gatedCycle run s = .next s := by
  simp [gatedCycle, h]

/-- An unlatched cycle on a word that decodes runs its instruction. -/
theorem gatedCycle_instr {i : Instr} (h : s.latch = none) (hd : decodeWord s.fetch = .ok i) :
    gatedCycle run s = run i s := by
  simp [gatedCycle, cycleOf, h, hd]

/-- An unlatched cycle on an unrecognised word advances pc. -/
theorem gatedCycle_unrecognised {why : Unrecognised} (h : s.latch = none) (hd : decodeWord s.fetch = .error why) :
    gatedCycle run s = .next s.advance := by
  simp [gatedCycle, cycleOf, execUnrecognised, h, hd]

/-- Everything a cycle can do: nothing while latched, one instruction, or the no-operation of an unrecognised word. -/
theorem gatedCycle_cases (run : Instr → State → Result) (s : State) :
    (∃ r, s.latch = some r ∧ gatedCycle run s = .next s) ∨
    (∃ i, s.latch = none ∧ decodeWord s.fetch = .ok i ∧ gatedCycle run s = run i s) ∨
    (∃ why, s.latch = none ∧ decodeWord s.fetch = .error why ∧ gatedCycle run s = .next s.advance) := by
  rcases hl : s.latch with _ | r
  · rcases hd : decodeWord s.fetch with why | i
    · exact .inr (.inr ⟨why, rfl, rfl, gatedCycle_unrecognised hl hd⟩)
    · exact .inr (.inl ⟨i, rfl, rfl, gatedCycle_instr hl hd⟩)
  · exact .inl ⟨r, rfl, gatedCycle_latched hl⟩

/-- An instruction on a given byte is that instruction, or CXKK on the byte. -/
theorem execWith_cases (rnd : Byte) (i : Instr) (s : State) :
    execWith rnd i s = exec i s ∨ ∃ x kk, i = .rnd x kk ∧ execWith rnd i s = execRndWith rnd x kk s := by
  cases i
  case rnd x kk => exact .inr ⟨x, kk, rfl, rfl⟩
  all_goals exact .inl rfl

/-- Equal memories are canonical together. -/
theorem State.Inv.of_mem (h : t.mem = s.mem) (hs : s.Inv) : t.Inv := by
  unfold State.Inv; rw [h]; exact hs

/-- Two states with the same memory and the same pc fetch the same word. -/
theorem State.fetch_congr (hm : t.mem = s.mem) (hp : t.pc = s.pc) : t.fetch = s.fetch := by
  simp [State.fetch, State.memRead, hm, hp]

end Sys2Proof.Machine
end

