-- ==== Sys2Proof/Laws/Transactions.lean ====
section
/-! SUPPORT. What installing a FONT and the reset of LOAD leave (spec/70_reset_and_hazards.md R241), for every FONT. -/

namespace Sys2Proof.Machine

/-- FONT is the 80 bytes it is. -/
theorem font_length (font : Font) : font.toList.length = 80 := Vector.length_toList

/-- The font region holds the FONT installed. -/
theorem State.memRead_installFont {s : State} (h : s.Inv) (font : Font) (a : Word) :
    (s.installFont font).memRead a = if h' : memIndex a < 80 then font[memIndex a] else s.memRead a := by
  have index : ∀ k, k < 80 → memIndex (0 + BitVec.ofNat 16 k) = k := fun k hk => by
    rw [show (0 : Word) + BitVec.ofNat 16 k = BitVec.ofNat 16 k from BitVec.zero_add _]
    simp only [memIndex, Config.memSize, BitVec.toNat_ofNat]; omega
  have congr : ∀ {t : State} {b c : Word}, memIndex b = memIndex c → t.memRead b = t.memRead c := fun e => by
    simp only [State.memRead, e]
  split
  · rename_i ha
    have hl : memIndex a < font.toList.length := by rw [font_length]; exact ha
    rw [State.installFont, congr (index _ ha).symm,
      State.memRead_memWriteList _ h (by rw [font_length]; decide) hl, Vector.getElem_toList]
  · rename_i ha
    refine State.memRead_memWriteList_of_ne _ h fun k hk => ?_
    rw [font_length] at hk
    rw [index k hk]; omega

/-- The default FONT is what unlisted addresses read as: installing it lists nothing. -/
theorem State.powerOn_defaultFont_mem : (State.powerOn defaultFont).mem = [] := by decide

/-- Outside the font region an unlisted address reads as 0. -/
theorem unlisted_of_le {a : Nat} (h : 80 ≤ a) : Memory.unlisted a = 0 := List.getD_eq_default _ _ h

/-- Memory before the first LOAD: FONT, and zeros everywhere else. -/
theorem State.memRead_powerOn (font : Font) (a : Word) : (State.powerOn font).memRead a = clearedByte font a := by
  have hi : State.reset.Inv := by rfl
  rw [State.powerOn, State.memRead_installFont hi, clearedByte]
  split
  · rename_i h; exact (dif_pos h).symm
  · rename_i h
    rw [dif_neg (show ¬ a.toNat % 4096 < 80 from h)]
    exact unlisted_of_le (Nat.le_of_not_lt h)

/-- Memory before the first LOAD is canonical. -/
theorem State.powerOn_inv (font : Font) : (State.powerOn font).Inv := State.Inv.memWriteList _ _ rfl

/-- Every part but memory, Q and the draw counter is at its reset value before the first LOAD. -/
theorem State.resetValues_powerOn (font : Font) : ResetValues (State.powerOn font) := by
  constructor <;> simp [State.powerOn, State.installFont, State.reset, State.reg, State.stackEntry, State.key,
    Config.progBase]

/-- Memory after LOAD's reset is that before the first LOAD. -/
@[simp] theorem State.memRead_loadReset (s : State) (font : Font) (a : Word) :
    (s.loadReset font).memRead a = (State.powerOn font).memRead a := rfl

/-- LOAD's reset leaves canonical memory. -/
theorem State.loadReset_inv (s : State) (font : Font) : (s.loadReset font).Inv := State.powerOn_inv font

/-- LOAD's reset leaves Q. -/
@[simp] theorem State.loadReset_q (s : State) (font : Font) : (s.loadReset font).q = s.q := rfl

/-- LOAD's reset leaves the model's draw counter. -/
@[simp] theorem State.loadReset_draws (s : State) (font : Font) : (s.loadReset font).draws = s.draws := rfl

/-- LOAD's reset leaves every other part as it is before the first LOAD. -/
theorem State.resetValues_loadReset (s : State) (font : Font) : ResetValues (s.loadReset font) := by
  obtain ⟨regs, i, pc, stack, sp, dt, st, disp, keys, latch⟩ := State.resetValues_powerOn font
  exact ⟨regs, i, pc, stack, sp, dt, st, disp, keys, latch⟩

/-- Storing bytes keeps the reset values. -/
theorem ResetValues.memWriteList {s : State} (h : ResetValues s) (a : Word) (bs : List Byte) :
    ResetValues (s.memWriteList a bs) := by
  constructor <;> simp [h.regs, h.i, h.pc, h.stack, h.sp, h.dt, h.st, h.disp, h.keys, h.latch]

end Sys2Proof.Machine
end

