-- ==== Sys2Proof/Tests/Slice0.lean ====
section
/-! SUPPORT. The model's own tests: well-formedness, decoding, one step of each instruction, the host's transactions, and a
witness for the hypotheses of every statement that has some. Expected values are those of spec/95_test_vectors.md, named by
their ids, or worked out by hand from the rule named. -/

namespace Sys2Proof.Tests

open Sys2Proof Sys2Proof.Machine

/-! ## Well-formedness and encoding -/

/-- 0x00E0 is CLS and 0x00EE is RET, so no SYS has those addresses (30_encoding.md R73). -/
theorem test_wf_refuses_sys_of_cls_and_ret :
    (Instr.sys 0x0E0).wf = false ∧ (Instr.sys 0x0EE).wf = false ∧ (Instr.sys 0x0E1).wf = true := by decide

/-- Control flow words, bit by bit from 30_encoding.md R72: F, then X, Y, N or NNN. -/
theorem test_decode_control_flow :
    decodeWord 0b0000000100100011 = .ok (.sys 0x123) ∧ decodeWord 0b0000000011101110 = .ok .ret ∧
    decodeWord 0b0001101010111100 = .ok (.jp 0xABC) ∧ decodeWord 0b0010001000001100 = .ok (.call 0x20C) ∧
    decodeWord 0b0011001100000110 = .ok (.seImm 3 0x06) ∧ decodeWord 0b0100000000000001 = .ok (.sneImm 0 0x01) ∧
    decodeWord 0b0101000100100000 = .ok (.seReg 1 2) ∧ decodeWord 0b1001000100100000 = .ok (.sneReg 1 2) ∧
    decodeWord 0b1011001000110100 = .ok (.jpV0 0x234) := by decide

/-- Register and arithmetic words (R72). -/
theorem test_decode_arithmetic :
    decodeWord 0x6A2F = .ok (.ldImm 10 0x2F) ∧ decodeWord 0x7101 = .ok (.addImm 1 0x01) ∧
    decodeWord 0x8120 = .ok (.ldReg 1 2) ∧ decodeWord 0x8121 = .ok (.orReg 1 2) ∧ decodeWord 0x8122 = .ok (.andReg 1 2) ∧
    decodeWord 0x8123 = .ok (.xorReg 1 2) ∧ decodeWord 0x8124 = .ok (.addReg 1 2) ∧ decodeWord 0x8125 = .ok (.sub 1 2) ∧
    decodeWord 0x8126 = .ok (.shr 1 2) ∧ decodeWord 0x8127 = .ok (.subn 1 2) ∧ decodeWord 0x812E = .ok (.shl 1 2) ∧
    decodeWord 0xC30F = .ok (.rnd 3 0x0F) := by decide

/-- Index, memory, display, keypad and timer words (R72). -/
theorem test_decode_memory_display_keys :
    decodeWord 0xA300 = .ok (.ldI 0x300) ∧ decodeWord 0xF21E = .ok (.addI 2) ∧ decodeWord 0xF029 = .ok (.ldF 0) ∧
    decodeWord 0xF033 = .ok (.ldB 0) ∧ decodeWord 0xF255 = .ok (.storeRegs 2) ∧ decodeWord 0xF265 = .ok (.loadRegs 2) ∧
    decodeWord 0x00E0 = .ok .cls ∧ decodeWord 0xD125 = .ok (.drw 1 2 5) ∧ decodeWord 0xE19E = .ok (.skp 1) ∧
    decodeWord 0xE1A1 = .ok (.sknp 1) ∧ decodeWord 0xF407 = .ok (.ldVxDt 4) ∧ decodeWord 0xF30A = .ok (.ldVxK 3) ∧
    decodeWord 0xF215 = .ok (.ldDtVx 2) ∧ decodeWord 0xF218 = .ok (.ldStVx 2) := by decide

/-- Unrecognised words are rejected by name (R74; CF15, CF18, A25, K5). -/
theorem test_decode_rejects_unrecognised :
    decodeWord 0x5121 = .error (.family5 1) ∧ decodeWord 0x912F = .error (.family9 15) ∧
    decodeWord 0x800C = .error (.family8 12) ∧ decodeWord 0xE09F = .error (.familyE 0x9F) ∧
    decodeWord 0xF0FF = .error (.familyF 0xFF) := by decide

/-- The words the other way: what the encoder writes (R72). -/
theorem test_encode_words :
    encode (.sub 1 2) = 0x8125 ∧ encode (.drw 1 2 5) = 0xD125 ∧ encode (.sknp 1) = 0xE1A1 ∧ encode (.jpV0 0x234) = 0xB234 ∧
    encode (.storeRegs 2) = 0xF255 := by decide

/-- The table's numbering, and the two bytes an instruction needs (R70). -/
theorem test_decode_bytes :
    decodeTableWord 16 0x8125 = some (.sub 1 2) ∧ decodeTableWord 16 0x5121 = none ∧
    decodeBytes [0x81, 0x25, 0x07] = .ok (.sub 1 2, [0x07]) ∧ decodeBytes [0x81] = .error .truncated := by decide

/-! ## Helpers -/

/-- The state a result goes on in. -/
def nextOf : Result → Option State
  | .next t => some t
  | .fault _ => none
  | .refused _ => none

/-- The state after one step on the word `w`, placed at pc. -/
def run (s : State) (w : Nat) : Option State := nextOf (step (s.withFetchWord 16 w))

/-- The state after reset with two registers written. -/
def regs (x : Reg) (a : Byte) (y : Reg) (b : Byte) : State := (State.reset.setReg x a).setReg y b

/-- The same state with other quirks: VFReset, Shifting, Jumping, Clipping, MemoryIncrement. -/
def quirky (f s j c m : Bool) (t : State) : State :=
  t.setQ { vfReset := f, shifting := s, jumping := j, clipping := c, memoryIncrement := m }

/-- V[x], V[F] and pc of a state, as numbers. -/
def xfp (x : Reg) (t : State) : Nat × Nat × Nat := ((t.reg x).toNat, (t.reg VF).toNat, t.pc.toNat)

/-- A list of transactions from a state. -/
def host (ts : List Transaction) (s : State) : Option State := nextOf (runTransactions ts s)

/-! ## Control flow -/

/-- CF1. -/
theorem test_sys : (run State.reset 0x0123).map (·.pc) = some 0x202 := by decide
/-- CF3. -/
theorem test_jp : (run State.reset 0x1ABC).map (·.pc) = some 0xABC := by decide
/-- CF4. -/
theorem test_call : (run (State.reset.setPc 0x204) 0x220C).map (fun t => (t.stackEntry 1, t.sp, t.pc)) =
    some (0x204, 1, 0x20C) := by decide
/-- CF5. -/
theorem test_ret : (run (State.reset.push 0x204) 0x00EE).map (fun t => (t.pc, t.sp)) = some (0x206, 0) := by decide
/-- CF6: no underflow detection. -/
theorem test_ret_underflow : (run State.reset 0x00EE).map (fun t => (t.pc, t.sp)) = some (0x002, 15) := by decide
/-- CF8, CF9. -/
theorem test_se_imm : (run ((regs 3 6 0 0).setPc 0x208) 0x3306).map (·.pc) = some 0x20C ∧
    (run ((regs 3 7 0 0).setPc 0x208) 0x3306).map (·.pc) = some 0x20A := by decide
/-- CF11, CF12. -/
theorem test_sne_imm : (run (regs 0 1 1 0) 0x4001).map (·.pc) = some 0x202 ∧
    (run (regs 0 2 1 0) 0x4001).map (·.pc) = some 0x204 := by decide
/-- CF13. -/
theorem test_se_reg : (run (regs 1 0x40 2 0x40) 0x5120).map (·.pc) = some 0x204 ∧
    (run (regs 1 0x40 2 0x41) 0x5120).map (·.pc) = some 0x202 := by decide
/-- CF16, CF17. -/
theorem test_sne_reg : (run (regs 1 0x40 2 0x41) 0x9120).map (·.pc) = some 0x204 ∧
    (run (regs 1 0x40 2 0x41) 0x9110).map (·.pc) = some 0x202 := by decide
/-- CF19, CF20. -/
theorem test_jp_v0 : (run (regs 0 0x10 2 0x30) 0xB234).map (·.pc) = some 0x244 ∧
    (run (quirky false false true true true (regs 0 0x10 2 0x30)) 0xB234).map (·.pc) = some 0x264 := by decide
/-- CF21: the sum keeps its bit 12. -/
theorem test_jp_v0_wide : (run (regs 0 0xFF 1 0) 0xBFFF).map (·.pc) = some 0x10FE := by decide
/-- CF15, K5: an unrecognised word. -/
theorem test_unrecognised : (run (regs 1 0x40 2 0x40) 0x5121).map (·.pc) = some 0x202 ∧
    (run State.reset 0xF0FF).map (·.pc) = some 0x202 := by decide
/-- CF23: pc wraps modulo 2^16. -/
theorem test_pc_wraps : (run (State.reset.setPc 0xFFFE) 0x0000).map (·.pc) = some 0 := by decide

/-! ## Registers and arithmetic -/

/-- A1. -/
theorem test_ld_imm : (run State.reset 0x6A2F).map (xfp 10) = some (0x2F, 0, 0x202) := by decide
/-- A2. -/
theorem test_add_imm : (run (regs 1 0xFF VF 5) 0x7101).map (xfp 1) = some (0, 5, 0x202) := by decide
/-- A4. -/
theorem test_ld_reg : (run (regs 2 0x77 1 0) 0x8120).map (xfp 1) = some (0x77, 0, 0x202) := by decide
/-- A5, A6. -/
theorem test_or : (run ((regs 0 0x0F 1 0xF0).setReg VF 7) 0x8011).map (xfp 0) = some (0xFF, 7, 0x202) ∧
    (run (quirky true false false true true ((regs 0 0x0F 1 0xF0).setReg VF 7)) 0x8011).map (xfp 0) =
      some (0xFF, 0, 0x202) := by decide
/-- A7. -/
theorem test_and : (run (quirky true false false true true ((regs 0 0x3C 1 0x0F).setReg VF 7)) 0x8012).map (xfp 0) =
    some (0x0C, 0, 0x202) := by decide
/-- A8. -/
theorem test_xor : (run (regs 0 0x3C 1 0x0F) 0x8013).map (xfp 0) = some (0x33, 0, 0x202) := by decide
/-- A9: the reset overrides the result. -/
theorem test_or_into_flag : (run (quirky true false false true true (regs VF 0x0F 1 0xF0)) 0x8F11).map (xfp VF) =
    some (0, 0, 0x202) := by decide
/-- E4a, E4b. -/
theorem test_add : (run (regs 0 0xFF 1 1) 0x8014).map (xfp 0) = some (0, 1, 0x202) ∧
    (run (regs 0 1 1 1) 0x8014).map (xfp 0) = some (2, 0, 0x202) := by decide
/-- A10, A11: VF as destination and as source. -/
theorem test_add_flag_operands : (run (regs VF 0xFF 1 1) 0x8F14).map (xfp VF) = some (1, 1, 0x202) ∧
    (run (regs 0 0x80 VF 0x80) 0x80F4).map (xfp 0) = some (0, 1, 0x202) := by decide
/-- A12, A13. -/
theorem test_sub : (run (regs 0 5 1 7) 0x8015).map (xfp 0) = some (0xFE, 0, 0x202) ∧
    (run (regs 0 7 1 7) 0x8015).map (xfp 0) = some (0, 1, 0x202) := by decide
/-- A15, A16. -/
theorem test_subn : (run (regs 0 5 1 7) 0x8017).map (xfp 0) = some (2, 1, 0x202) ∧
    (run (regs 0 7 1 5) 0x8017).map (xfp 0) = some (0xFE, 0, 0x202) := by decide
/-- E5, A18: V[Y] is shifted and not written. -/
theorem test_shr : (run (regs 0 0xAA 1 3) 0x8016).map (xfp 0) = some (1, 1, 0x202) ∧
    (run (regs 0 5 1 0xFE) 0x8016).map (fun t => (xfp 0 t, (t.reg 1).toNat)) = some ((0x7F, 0, 0x202), 0xFE) := by decide
/-- A17: V[X] is shifted with Shifting = 1. -/
theorem test_shr_in_place : (run (quirky false true false true true (regs 0 5 1 0xFF)) 0x8016).map (xfp 0) =
    some (2, 1, 0x202) := by decide
/-- A20, A21. -/
theorem test_shl : (run (regs 0 0 1 0x81) 0x801E).map (xfp 0) = some (2, 1, 0x202) ∧
    (run (quirky false true false true true (regs 0 0x40 1 0)) 0x801E).map (xfp 0) = some (0x80, 0, 0x202) := by decide
/-- A22, A24: the byte STEP is given, masked. -/
theorem test_rnd : (nextOf (stepWith 0xA7 (State.reset.withFetchWord 16 0xC30F))).map (xfp 3) = some (7, 0, 0x202) ∧
    (nextOf (stepWith 0x5A (State.reset.withFetchWord 16 0xC3FF))).map (xfp 3) = some (0x5A, 0, 0x202) := by decide

/-! ## Index register and memory -/

/-- The bytes at three addresses. -/
def bytes3 (a b c : Word) (t : State) : Nat × Nat × Nat := ((t.memRead a).toNat, (t.memRead b).toNat, (t.memRead c).toNat)

/-- M1. -/
theorem test_ld_i : (run State.reset 0xA300).map (·.i) = some 0x300 := by decide
/-- M3, M4. -/
theorem test_add_i : (run ((regs 0 1 1 0).setI 0xFFF) 0xF01E).map (fun t => (t.i, t.reg VF)) = some (0x1000, 0) ∧
    (run ((regs 0 2 1 0).setI 0xFFFF) 0xF01E).map (·.i) = some 1 := by decide
/-- M5, M6. -/
theorem test_ld_f : (run (regs 0 5 1 0) 0xF029).map (·.i) = some 0x19 ∧
    (run (regs 0 0x1A 1 0) 0xF029).map (·.i) = some 0x32 := by decide
/-- M7. -/
theorem test_ld_b : (run ((regs 0 254 1 0).setI 0x300) 0xF033).map (fun t => (bytes3 0x300 0x301 0x302 t, t.i)) =
    some ((2, 5, 4), 0x300) := by decide
/-- M9: past the last address. -/
theorem test_ld_b_wraps : (run ((regs 0 123 1 0).setI 0xFFF) 0xF033).map (bytes3 0xFFF 0x000 0x001) = some (1, 2, 3) := by
  decide
/-- M10, M11. -/
theorem test_store_regs :
    (run (((regs 0 1 1 2).setReg 2 3).setI 0x400) 0xF255).map (fun t => (bytes3 0x400 0x401 0x402 t, t.i)) =
      some ((1, 2, 3), 0x403) ∧
    (run (quirky false false false true false (((regs 0 1 1 2).setReg 2 3).setI 0x400)) 0xF255).map (·.i) =
      some 0x400 := by decide
/-- M13: V[0] alone. -/
theorem test_store_one : (run ((regs 0 0x42 1 9).setI 0x500) 0xF055).map (fun t => (bytes3 0x4FF 0x500 0x501 t, t.i)) =
    some ((0, 0x42, 0), 0x501) := by decide
/-- M15: glyph 0 of the default font; V[5] is not loaded. -/
theorem test_load_regs : (run (quirky false false false true false (regs 5 0x55 6 0)) 0xF465).map
    (fun t => ((t.reg 0).toNat, (t.reg 1).toNat, (t.reg 4).toNat, (t.reg 5).toNat, t.i)) =
      some (0xF0, 0x90, 0xF0, 0x55, 0) := by decide

/-! ## The display -/

/-- The lit pixels among row `y`'s columns from `x` on, four of them, as a string of bits. -/
def bits4 (x : Fin 64) (y : Fin 32) (t : State) : List Bool :=
  [t.disp.pixel x y, t.disp.pixel (x + 1) y, t.disp.pixel (x + 2) y, t.disp.pixel (x + 3) y]

/-- DP1. -/
theorem test_cls : (run (State.reset.setDisp (Display.clear.toggle 5 6)) 0x00E0).map (fun t => t.disp.pixel 5 6) =
    some false := by decide
/-- DP2, two of its rows; DP5, the column is VF's old value. -/
theorem test_drw : (run ((regs 1 10 2 3).setI 0x19) 0xD125).map (fun t => (bits4 10 3 t, bits4 10 6 t, t.reg VF)) =
      some ([true, true, true, true], [false, false, false, true], 0) ∧
    (run (regs VF 60 2 0) 0xDF21).map (fun t => (bits4 60 0 t, t.reg VF)) = some ([true, true, true, true], 0) := by decide
/-- P4: columns past the right edge are dropped and later rows still drawn, or with Clipping = 0 they wrap; and a lit pixel
under the sprite goes out and sets VF (R162). -/
theorem test_drw_edges_and_collision :
    (run (regs 1 62 2 30) 0xD122).map (fun t => (bits4 62 30 t, bits4 62 31 t)) =
      some ([true, true, false, false], [true, false, false, false]) ∧
    (run (quirky false false false false true (regs 1 62 2 30)) 0xD122).map (fun t => (bits4 62 30 t, bits4 62 31 t)) =
      some ([true, true, true, true], [true, false, false, true]) ∧
    (run (State.reset.setDisp (Display.clear.toggle 1 0)) 0xD011).map (fun t => (bits4 0 0 t, t.reg VF)) =
      some ([true, false, true, true], 1) := by decide

/-! ## Keypad, timers and the host -/

/-- K1, K2. -/
theorem test_skp : (run ((regs 1 7 0 0).setKey 7 true) 0xE19E).map (·.pc) = some 0x204 ∧
    (run (regs 1 7 0 0) 0xE19E).map (·.pc) = some 0x202 := by decide
/-- K3, and K4's low nibble. -/
theorem test_sknp : (run (regs 1 7 0 0) 0xE1A1).map (·.pc) = some 0x204 ∧
    (run ((regs 1 0x17 0 0).setKey 7 true) 0xE1A1).map (·.pc) = some 0x202 := by decide
/-- K6. -/
theorem test_ld_vx_dt : (run (State.reset.setDt 0x3C) 0xF407).map (xfp 4) = some (0x3C, 0, 0x202) := by decide
/-- K10, K16: the wait begins, pc is past it, and further steps do nothing. -/
theorem test_ld_vx_k : (run State.reset 0xF50A).map (fun t => (t.latch, t.pc)) = some (some 5, 0x202) ∧
    step ((State.reset.setPc 0x202).setLatch (some 2)) = .next ((State.reset.setPc 0x202).setLatch (some 2)) :=
  ⟨by decide, rfl⟩
/-- FX15 (E8). -/
theorem test_ld_dt : (run (regs 0 5 1 0) 0xF015).map (fun t => (t.dt, t.st)) = some (5, 0) := by decide
/-- K7. -/
theorem test_ld_st : (run (regs 2 5 1 0) 0xF218).map (fun t => (t.dt, t.st, soundActive t)) = some (0, 5, true) := by decide
/-- K8, K9. -/
theorem test_tick : (host [.tick] (State.reset.setSt 1)).map (fun t => (t.dt, t.st, soundActive t)) = some (0, 0, false) ∧
    (host [.tick] ((State.reset.setDt 2).setLatch (some 3))).map (fun t => (t.dt, t.latch)) = some (1, some 3) := by decide
/-- K10, K11: a press does not end the wait, a release does. -/
theorem test_key_ends_wait : (host [.key 4 true] (State.reset.setLatch (some 5))).map
      (fun t => (t.key 4, t.reg 5, t.latch)) = some (true, 0, some 5) ∧
    (host [.key 4 true, .key 4 false] (State.reset.setLatch (some 5))).map
      (fun t => (t.key 4, t.reg 5, t.latch)) = some (false, 4, none) := by decide
/-- K14. -/
theorem test_key_invalid : answer (.key 16 true) State.reset = .keyed .invalidKeyCode ∧
    answer (.key 15 true) State.reset = .keyed .ok := by decide
/-- RS3, RS4, RS5: an empty ROM is loaded, the wait ends and Q stays. -/
theorem test_load_empty :
    (host [.load []] (quirky true true true false false (State.reset.setLatch (some 3)))).map
      (fun t => (t.latch, t.pc, t.q.toBits)) = some (none, 0x200, 0b00111) := by decide
/-- LOAD with another FONT than the default (00_scope.md R8): its bytes are at 0x000 to 0x04F, and FX29's glyph of 5 is its. -/
theorem test_load_other_font :
    bytes3 0x000 0x04F 0x050 (load [] State.reset (font := Vector.replicate 80 7)).2 = (7, 7, 0) ∧
    (run ((load [] State.reset (font := Vector.replicate 80 7)).2.setReg 0 5) 0xF029).map (fun t => (t.memRead t.i).toNat) =
      some 7 := by decide
/-- P1's first bytes, and its first step. -/
theorem test_load_and_step : (host [.load [0x60, 0x05, 0x61, 0x01], .step 0] State.reset).map
    (fun t => (xfp 0 t, bytes3 0x200 0x201 0x203 t)) = some ((5, 0, 0x202), (0x60, 0x05, 0x01)) := by decide
/-- The state before the first LOAD (10_state.md R31, R33). -/
theorem test_reset : State.reset.pc = 0x200 ∧ State.reset.q.toBits = 0b11000 ∧ State.reset.memRead 0x04B = 0xF0 ∧
    State.reset.memRead 0x04F = 0x80 ∧ State.reset.memRead 0x050 = 0 := by decide

/-! ## Witnesses: for each statement with hypotheses, a state and operands that meet them, clause by clause -/

theorem witness_DecodeOfEncode : (Instr.sys 0x0E1).wf = true ∧ (Instr.drw 15 15 15).wf = true := by decide

theorem witness_EncodeOfDecode : decodeWord 0xFF65 = .ok (.loadRegs 15) := by decide

theorem witness_DecodedWordIsItsRow : decodeWord 0x00EE = .ok .ret ∧
    (0x8FF4 : Word) &&& (Instr.addReg 0 0).rowMask = (Instr.addReg 0 0).rowMatch ∧
    (0x8FF4 : Word) ≠ 0x00E0 ∧ (0x8FF4 : Word) ≠ 0x00EE := by decide

theorem witness_UnrecognisedWordsAreNoOps : (State.reset.withFetchWord 16 0x5121).latch = none ∧
    decodeWord (State.reset.withFetchWord 16 0x5121).fetch = .error (.family5 1) := by decide

theorem witness_StepIsOneCycle : (State.reset.setLatch (some 15)).latch = some 15 ∧
    (State.reset.withFetchWord 16 0x00EE).latch = none ∧
    decodeWord (State.reset.withFetchWord 16 0x00EE).fetch = .ok .ret := by decide

theorem witness_RandomByteReachesOnlyRnd : ∀ x kk, decodeWord State.reset.fetch ≠ .ok (.rnd x kk) := by
  intro x kk h
  have h' : decodeWord State.reset.fetch = .ok (.sys 0) := by decide
  rw [h'] at h
  cases h

theorem witness_StepKeepsCanonicalMemory : State.reset.Inv ∧ step State.reset = .next State.reset.advance ∧
    stepWith 7 State.reset = .next State.reset.advance := ⟨rfl, rfl, rfl⟩

theorem witness_RunsKeepCanonicalMemory : State.reset.Inv ∧
    ∃ t, runTransactions [.load [0xA2, 0x00], .step 0, .tick, .key 3 true] State.reset = .next t := ⟨rfl, _, rfl⟩

theorem witness_CanonicalMemoryIsUnique : Memory.wf [(0x000, 1), (0xFFF, 2)] = true ∧
    ∀ a, a < 4096 → Memory.read [(0x000, 1), (0xFFF, 2)] a = Memory.read [(0x000, 1), (0xFFF, 2)] a :=
  ⟨by decide, fun _ _ => rfl⟩

theorem witness_MemoryReadAfterWrite : State.reset.Inv ∧
    (0x1FFF : Word).toNat % 4096 = (0x0FFF : Word).toNat % 4096 ∧
    (0x0FFF : Word).toNat % 4096 ≠ (0x1000 : Word).toNat % 4096 := ⟨rfl, by decide, by decide⟩

theorem witness_CallsUnwind : (List.replicate 16 (0x300 : Addr)).length ≤ 16 ∧
    List.replicate 16 (0x300 : Addr) ≠ [] := by decide

theorem witness_SkipsOnKeys : ((15 : Fin 16).val = ((regs 1 0xFF 0 0).reg 1).toNat % 16) ∧
    (regs 1 0xFF 0 0).key 15 = false ∧ ((regs 1 0xFF 0 0).setKey 15 true).key 15 = true := by decide

theorem witness_JpV0AddsItsBase : (15 : Reg).val = (0xF00 : Addr).toNat / 256 ∧
    (0 : Reg).val = (0x0FF : Addr).toNat / 256 := by decide

/-- The arithmetic with V[X] apart from VF; with X = F the flag is what the statements give. -/
theorem witness_flag_destination : (14 : Reg) ≠ VF := by decide

/-- At I = 0xFFF the stored bytes wrap to 0 and 1; the byte at 2 is outside. -/
theorem witness_BcdStoresThreeDigits : (State.reset.setI 0xFFF).Inv ∧ memIndex 0x1002 ≠ memIndex (0xFFF : Word) ∧
    memIndex 0x1002 ≠ memIndex ((0xFFF : Word) + 1) ∧ memIndex 0x1002 ≠ memIndex ((0xFFF : Word) + 2) :=
  ⟨rfl, by decide, by decide, by decide⟩

theorem witness_StoreRegistersBlock : (State.reset.setI 0xFF8).Inv ∧ (15 : Reg) ≤ 15 ∧
    ∀ k, k ≤ (15 : Reg).val → memIndex 0x008 ≠ memIndex ((0xFF8 : Word) + BitVec.ofNat 16 k) :=
  ⟨rfl, by decide, by decide⟩

theorem witness_LoadRegistersBlock : (14 : Reg) ≤ 14 ∧ StatePart.reg VF ≠ .pc ∧ StatePart.reg VF ≠ .i ∧
    ∀ r : Reg, r ≤ 14 → StatePart.reg VF ≠ .reg r := by decide

/-- E6: the registers stored at 0x300, and I set back to it. -/
theorem witness_StoreThenLoadRestores : ∃ t u : State, ((regs 0 0x11 1 0x22).setI 0x300).Inv ∧
    exec (.storeRegs 1) ((regs 0 0x11 1 0x22).setI 0x300) = .next t ∧ u.mem = t.mem ∧
    u.i = ((regs 0 0x11 1 0x22).setI 0x300).i := ⟨_, State.setI _ 0x300, rfl, rfl, rfl, rfl⟩

/-- P6: the block is stored over the next instruction. -/
theorem witness_StoredBytesAreFetched : ∃ t, ((regs 0 0x12 1 0x34).setI 0x202).Inv ∧
    exec (.storeRegs 1) ((regs 0 0x12 1 0x34).setI 0x202) = .next t ∧ (1 : Reg).val = (0 : Reg).val + 1 ∧
    (1 : Reg) ≤ 1 ∧ memIndex t.pc = memIndex (((regs 0 0x12 1 0x34).setI 0x202).i + BitVec.ofNat 16 (0 : Reg).val) :=
  ⟨_, rfl, rfl, rfl, by decide, rfl⟩

/-- Glyph 0's first row covers column 3 and not column 4 of row 0; the covered pixel may be lit or not, and no row (N = 0)
covers nothing. -/
theorem witness_DrawTogglesTheSprite : SpriteCovers State.reset 0 0 1 3 0 ∧ ¬ SpriteCovers State.reset 0 0 1 4 0 ∧
    SpriteCovers (State.reset.setDisp (Display.clear.toggle 3 0)) 0 0 1 3 0 ∧
    (State.reset.setDisp (Display.clear.toggle 3 0)).disp.pixel 3 0 = true ∧
    ¬ ∃ px py, SpriteCovers State.reset 0 0 0 px py ∧ State.reset.disp.pixel px py = true := by
  refine ⟨⟨0, 3, by decide⟩, ?_, ⟨0, 3, by decide⟩, by decide, ?_⟩
  · rintro ⟨r, c, hr, hc, hb, hx, -⟩
    obtain rfl : r = 0 := by omega
    obtain rfl : c = 4 := by simpa using hx.symm
    revert hb; decide
  · rintro ⟨px, py, ⟨r, c, hr, -⟩, -⟩
    omega

theorem witness_DrawTwiceRestores : ∃ t, exec (.drw 1 2 5) State.reset = .next t ∧
    (t.reg 1).toNat % 64 = (State.reset.reg 1).toNat % 64 ∧ (t.reg 2).toNat % 32 = (State.reset.reg 2).toNat % 32 :=
  ⟨_, rfl, by decide, by decide⟩

theorem witness_TickDecrements : ((State.reset.setDt 1).setSt 255).dt.toNat > 0 ∧
    ((State.reset.setDt 1).setSt 255).st.toNat > 0 ∧ State.reset.dt = 0 ∧ State.reset.st = 0 := by decide

theorem witness_KeyTransaction : (16 : Nat) > 15 ∧ (15 : Nat) ≤ 15 ∧ State.reset.latch = none ∧
    (State.reset.setLatch (some 15)).latch = some 15 := by decide

theorem witness_WaitEndsOnlyByReleaseOrLoad :
    let ts : List Transaction := [.step 7, .tick, .key 15 true, .key 16 false, .setQuirks Quirks.default, .awaitingKey]
    (State.reset.setLatch (some 3)).latch = some 3 ∧
    (∀ tr ∈ ts, (∀ rom, tr ≠ .load rom) ∧ (∀ k, k ≤ 15 → tr ≠ .key k false)) ∧
    ∃ t, runTransactions ts (State.reset.setLatch (some 3)) = .next t := by
  refine ⟨rfl, ?_, _, rfl⟩
  intro tr h
  simp only [List.mem_cons, List.not_mem_nil, or_false] at h
  rcases h with rfl | rfl | rfl | rfl | rfl | rfl <;> simp
  omega

theorem witness_LoadInstallsProgram : (List.replicate 3584 (7 : Byte)).length ≤ 3584 ∧
    3583 < (List.replicate 3584 (7 : Byte)).length ∧ (0x1FF : Word).toNat % 4096 < 0x200 ∧
    0x200 + [(7 : Byte)].length ≤ (0xFFF : Word).toNat % 4096 := by
  simp only [List.length_replicate, List.length_singleton]; decide

theorem witness_OversizedLoadResets : (List.replicate 3585 (7 : Byte)).length > 3584 := by
  rw [List.length_replicate]; decide

theorem witness_LoadedFontHoldsTheGlyphs : 4 < 5 ∧ ([] : List Byte).length ≤ 3584 ∧
    ∃ t u : State, transact (.load []) State.reset (Vector.replicate 80 7) = .next t ∧ u.mem = t.mem ∧ u.reg 0 = 15 :=
  ⟨by decide, by decide, _, State.setReg _ 0 15, rfl, rfl, by decide⟩

theorem witness_QueriesAnswer : (64 ≥ 64 ∨ 0 ≥ 32) ∧ (0 ≥ 64 ∨ 32 ≥ 32) ∧ State.reset.latch = none ∧
    (State.reset.setLatch (some 0)).latch = some 0 ∧ State.reset.st = 0 ∧ (State.reset.setSt 1).st ≠ 0 := by decide

theorem witness_ProgramsLeaveHostState : (∃ t, step State.reset = .next t) ∧ (∃ t, stepWith 7 State.reset = .next t) ∧
    (State.reset.setLatch (some 2)).latch = some 2 ∧
    ∃ t, step (State.reset.withFetchWord 16 0xF50A) = .next t ∧ t.latch = some 5 := ⟨⟨_, rfl⟩, ⟨_, rfl⟩, rfl, _, rfl, rfl⟩

theorem witness_InstructionsWriteOnlyTheirParts : ∃ t, exec (.loadRegs 15) State.reset = .next t := ⟨_, rfl⟩

theorem witness_VfChangesOnlyWhereNamed : ∃ t, exec (.addReg 0 1) (regs 0 0xFF 1 1) = .next t ∧
    t.reg VF ≠ (regs 0 0xFF 1 1).reg VF := ⟨_, rfl, by decide⟩

theorem witness_SequentialAdvance : writesTarget .cls = false ∧ ∃ t, exec .cls (State.reset.setPc 0xFFFF) = .next t :=
  ⟨rfl, _, rfl⟩

theorem witness_HiddenBitsDoNotShow : SameToAProgram State.reset ((State.reset.setPc 0xF200).setI 0x1000) ∧
    ∃ t, stepWith 7 State.reset = .next t :=
  ⟨⟨rfl, rfl, rfl, rfl, fun _ => rfl, rfl, rfl, rfl, rfl, rfl, rfl, rfl, rfl⟩, _, rfl⟩

theorem witness_PlacedWordRuns : (State.reset.setLatch (some 1)).Inv ∧ decodeTableWord 16 0xD125 = some (.drw 1 2 5) :=
  ⟨rfl, by decide⟩

end Sys2Proof.Tests
end

section
/-!
PROOFS. The memory family (spec/20_memory.md): one read after one write, by whether the two addresses select one cell.
-/

namespace Sys2Proof.Machine

/-- Addresses are compared modulo 4096 at the access (20_memory.md R51). -/
theorem memIndex_eq_iff {a c : Word} : memIndex a = memIndex c ↔ a.toNat % 4096 = c.toNat % 4096 := Iff.rfl

/-- A read of the cell just written (20_memory.md R55). -/
theorem State.memRead_memWrite_same {s : State} (h : s.Inv) {a c : Word} (b : Byte) (hac : memIndex a = memIndex c) :
    (s.memWrite a b).memRead c = b := by
  rw [State.memRead_memWrite h, if_pos hac.symm]

/-- A write leaves every other cell's reading alone. -/
theorem State.memRead_memWrite_other {s : State} (h : s.Inv) {a c : Word} (b : Byte) (hac : memIndex a ≠ memIndex c) :
    (s.memWrite a b).memRead c = s.memRead c := by
  rw [State.memRead_memWrite h, if_neg hac.symm]

/-- Settles O15, by whether the two addresses select the same cell of a canonical memory. -/
theorem memoryReadAfterWrite : Obligations.MemoryReadAfterWrite := by
  intro s a c b hs
  constructor
  · intro hsame
    exact State.memRead_memWrite_same hs b (memIndex_eq_iff.mpr hsame)
  · intro hother
    exact State.memRead_memWrite_other hs b (memIndex_eq_iff.not.mpr hother)

end Sys2Proof.Machine
end

section
/-!
PROOFS. The encoding family (spec/30_encoding.md R70 to R74): the encoder and the decoder are inverse to each other on the
well-formed instructions, and the decoder is the opcode table.
-/

namespace Sys2Proof

/-! ## Decoding what was encoded -/

/-- Family 0 reads a word as SYS unless it is the word of CLS or of RET (R73). -/
theorem decodeFamily0_of_ne {w : Word} (hcls : w ≠ 0x00E0#16) (hret : w ≠ 0x00EE#16) :
    decodeFamily0 w = .sys (fieldNNN w) := by
  rw [decodeFamily0, if_neg hcls, if_neg hret]

/-- The word of a well-formed SYS decodes to it, being neither of those two words. -/
theorem decodeFamily0_wordFNNN {nnn : Addr} (h : nnn.isSys = true) : decodeFamily0 (wordFNNN 0x0 nnn) = .sys nnn := by
  obtain ⟨hcls, hret⟩ : nnn ≠ 0x0E0#12 ∧ nnn ≠ 0x0EE#12 := by simpa [Addr.isSys] using h
  have hwcls : wordFNNN 0x0 nnn ≠ 0x00E0#16 := fun h => hcls (by rw [← fieldNNN_wordFNNN 0x0 nnn, h]; rfl)
  have hwret : wordFNNN 0x0 nnn ≠ 0x00EE#16 := fun h => hret (by rw [← fieldNNN_wordFNNN 0x0 nnn, h]; rfl)
  rw [decodeFamily0_of_ne hwcls hwret, fieldNNN_wordFNNN]

/-- The word of a well-formed instruction decodes to it: the family and, in families 8, E and F, the sub-operation select
its own line of R73, and the fields of R71 are its operands. -/
theorem decodeWord_encode {i : Instr} (h : i.wf = true) : decodeWord (encode i) = .ok i := by
  cases i with
  | sys nnn => simpa [encode, decodeWord] using decodeFamily0_wordFNNN h
  | cls | ret => rfl
  | jp | call | seImm | sneImm | seReg | ldImm | addImm | sneReg | ldI | jpV0 | rnd | drw => simp [encode, decodeWord]
  | ldReg | orReg | andReg | xorReg | addReg | sub | shr | subn | shl => simp [encode, decodeWord, decodeFamily8]
  | skp | sknp => simp [encode, decodeWord, decodeFamilyE]
  | ldVxDt | ldVxK | ldDtVx | ldStVx | addI | ldF | ldB | storeRegs | loadRegs =>
    simp [encode, decodeWord, decodeFamilyF]

/-- The decoder of bytes takes the two bytes of a word and leaves the rest (R70). -/
theorem decodeBytes_bytesOfWord {w : Word} {i : Instr} (h : decodeWord w = .ok i) (rest : List Byte) :
    decodeBytes (bytesOfWord w ++ rest) = .ok (i, rest) := by
  simp [bytesOfWord, decodeBytes, wordOfBytes_bytesOfWord, h]

/-- Settles O2: the two bytes make up the encoded word, which decodes to its instruction. -/
theorem decodeOfEncode : Obligations.DecodeOfEncode :=
  fun _ rest hwf => decodeBytes_bytesOfWord (decodeWord_encode hwf) rest

/-! ## Encoding what was decoded -/

/-- The family is one of sixteen. -/
theorem fieldF_lt (w : Word) : fieldF w < 16 := (w.extractLsb' 12 4).isLt

/-- The words of the form FXYn with n fixed. -/
theorem wordFXYN_fields_of_low {w : Word} {f : BitVec 4} {n : Fin 16} (hf : fieldF w = f.toNat) (hn : (fieldN w).val = n) :
    wordFXYN f (fieldX w) (fieldY w) n = w := by
  rw [← Fin.ext hn, wordFXYN_fields w f hf]

/-- The words of the form FXkk with kk fixed. -/
theorem wordFXKK_fields_of_low {w : Word} {f : BitVec 4} {kk : Byte} (hf : fieldF w = f.toNat)
    (hkk : (fieldKK w).toNat = kk.toNat) : wordFXKK f (fieldX w) kk = w := by
  rw [← BitVec.eq_of_toNat_eq hkk, wordFXKK_fields w f hf]

/-- What family 0 decodes is the instruction of its word. -/
theorem decodeFamily0_inv {w : Word} (hf : fieldF w = 0x0) :
    (decodeFamily0 w).wf = true ∧ encode (decodeFamily0 w) = w := by
  have hw : wordFNNN 0x0 (fieldNNN w) = w := wordFNNN_fields w 0x0 hf
  unfold decodeFamily0
  split
  · next hcls => exact ⟨rfl, hcls.symm⟩
  · next hcls =>
    split
    · next hret => exact ⟨rfl, hret.symm⟩
    · next hret =>
      have hsys : fieldNNN w ≠ 0x0E0#12 ∧ fieldNNN w ≠ 0x0EE#12 :=
        ⟨fun h => hcls (by rw [← hw, h]; rfl), fun h => hret (by rw [← hw, h]; rfl)⟩
      exact ⟨by simpa [Instr.wf, Addr.isSys] using hsys, hw⟩

/-- What family 8 decodes is the instruction of its word. -/
theorem decodeFamily8_inv {w : Word} {i : Instr} (hf : fieldF w = 0x8) (h : decodeFamily8 w = .ok i) :
    i.wf = true ∧ encode i = w := by
  unfold decodeFamily8 at h
  split at h <;> cases h
  all_goals next hn => exact ⟨rfl, wordFXYN_fields_of_low hf hn⟩

/-- What family E decodes is the instruction of its word. -/
theorem decodeFamilyE_inv {w : Word} {i : Instr} (hf : fieldF w = 0xE) (h : decodeFamilyE w = .ok i) :
    i.wf = true ∧ encode i = w := by
  unfold decodeFamilyE at h
  split at h <;> cases h
  all_goals next hkk => exact ⟨rfl, wordFXKK_fields_of_low hf hkk⟩

/-- What family F decodes is the instruction of its word. -/
theorem decodeFamilyF_inv {w : Word} {i : Instr} (hf : fieldF w = 0xF) (h : decodeFamilyF w = .ok i) :
    i.wf = true ∧ encode i = w := by
  unfold decodeFamilyF at h
  split at h <;> cases h
  all_goals next hkk => exact ⟨rfl, wordFXKK_fields_of_low hf hkk⟩

/-- A word that decodes is the word of its instruction. The split numbers the decoder's lines from 1, so line `h_n` is
family `n - 1`; the fields of the word make up the word in each. -/
theorem decodeWord_inv {w : Word} {i : Instr} (h : decodeWord w = .ok i) : i.wf = true ∧ encode i = w := by
  unfold decodeWord at h
  split at h
  case h_1 hf => cases h; exact decodeFamily0_inv hf
  case h_9 hf => exact decodeFamily8_inv hf h
  case h_15 hf => exact decodeFamilyE_inv hf h
  case h_16 =>
    have hf : fieldF w = 0xF := by grind [fieldF_lt]
    exact decodeFamilyF_inv hf h
  case h_6 hf | h_10 hf =>
    split at h <;> cases h
    next hn => exact ⟨rfl, wordFXYN_fields_of_low hf (congrArg Fin.val hn)⟩
  case h_2 hf | h_3 hf | h_11 hf | h_12 hf => cases h; exact ⟨rfl, wordFNNN_fields w _ hf⟩
  case h_4 hf | h_5 hf | h_7 hf | h_8 hf | h_13 hf => cases h; exact ⟨rfl, wordFXKK_fields w _ hf⟩
  case h_14 hf => cases h; exact ⟨rfl, wordFXYN_fields w _ hf⟩

/-- Settles O3, by the inversion of the decoder. -/
theorem encodeOfDecode : Obligations.EncodeOfDecode := fun _ _ => decodeWord_inv

/-! ## The decoder and the opcode table -/

open Laws.EncodeRow in
/-- Every encoded word lies in its instruction's row of the opcode table (R72), by the form of its word. -/
theorem encode_and_rowMask (i : Instr) : encode i &&& i.rowMask = i.rowMatch := by
  cases i with
  | cls | ret => rfl
  | sys | jp | call | ldI | jpV0 => exact row_FNNN _ _
  | seImm | sneImm | ldImm | addImm | rnd => exact row_FXKK _ _ _
  | drw => exact row_FXYN _ _ _ _
  | seReg | ldReg | orReg | andReg | xorReg | addReg | sub | shr | subn | shl | sneReg => exact row_FXY _ _ _ _
  | skp | sknp | ldVxDt | ldVxK | ldDtVx | ldStVx | addI | ldF | ldB | storeRegs | loadRegs => exact row_FX _ _ _

/-- A word in a row of mask 0xF000 has the family of the row's match. -/
theorem fieldF_of_and_F000 {w m : Word} (h : w &&& 0xF000#16 = m) : fieldF w = m.toNat / 4096 := by
  have := and_F000 w
  rw [fieldF_eq, ← h]; omega

/-- A word in a row of mask 0xF00F has the family and the low digit of the row's match. -/
theorem fields_of_and_F00F {w m : Word} (h : w &&& 0xF00F#16 = m) :
    fieldF w = m.toNat / 4096 ∧ fieldN w = Fin.ofNat 16 m.toNat := by
  have := and_F00F w
  rw [fieldF_eq, Fin.ext_iff, fieldN_val, Fin.val_ofNat, ← h]; omega

/-- A word in a row of mask 0xF0FF has the family and the low byte of the row's match. -/
theorem fields_of_and_F0FF {w m : Word} (h : w &&& 0xF0FF#16 = m) :
    fieldF w = m.toNat / 4096 ∧ (fieldKK w).toNat = m.toNat % 256 := by
  have := and_F0FF w
  rw [fieldF_eq, fieldKK_toNat, ← h]; omega

/-- A word in a row decodes to an instruction of the row, but for the words of CLS and RET: the fields that the row's mask
fixes select the decoder's line. -/
theorem decodeWord_of_row {w : Word} (i : Instr) (h : w &&& i.rowMask = i.rowMatch) (hcls : w ≠ 0x00E0) (hret : w ≠ 0x00EE) :
    ∃ j, decodeWord w = .ok j ∧ j.rowMatch = i.rowMatch ∧ j.rowMask = i.rowMask := by
  cases i with
  | cls => exact absurd (BitVec.and_allOnes.symm.trans h) hcls
  | ret => exact absurd (BitVec.and_allOnes.symm.trans h) hret
  | sys =>
    have hf := fieldF_of_and_F000 h
    simp only [Instr.rowMatch] at hf
    simp only [decodeWord, hf, decodeFamily0_of_ne hcls hret]
    exact ⟨_, rfl, rfl, rfl⟩
  | jp | call | seImm | sneImm | ldImm | addImm | ldI | jpV0 | rnd | drw =>
    have hf := fieldF_of_and_F000 h
    simp only [Instr.rowMatch] at hf
    simp only [decodeWord, hf]
    exact ⟨_, rfl, rfl, rfl⟩
  | seReg | sneReg | ldReg | orReg | andReg | xorReg | addReg | sub | shr | subn | shl =>
    obtain ⟨hf, hn⟩ := fields_of_and_F00F h
    simp only [Instr.rowMatch] at hf hn
    simp only [decodeWord, hf, decodeFamily8, hn]
    exact ⟨_, rfl, rfl, rfl⟩
  | skp | sknp | ldVxDt | ldVxK | ldDtVx | ldStVx | addI | ldF | ldB | storeRegs | loadRegs =>
    obtain ⟨hf, hkk⟩ := fields_of_and_F0FF h
    simp only [Instr.rowMatch] at hf hkk
    simp only [decodeWord, hf, decodeFamilyE, decodeFamilyF, hkk]
    exact ⟨_, rfl, rfl, rfl⟩

/-- Settles O4: a word that decodes is its instruction's own word, which lies in its row; and the words of a row decode to
the row. -/
theorem decodedWordIsItsRow : Obligations.DecodedWordIsItsRow := by
  constructor
  · intro w i h
    obtain ⟨-, henc⟩ := decodeWord_inv h
    rw [← henc, encode_and_rowMask]
  · intro w i
    exact decodeWord_of_row i

/-! ## Written-out words -/

/-- Settles O1, by running the decoder on the written-out words. -/
theorem workedWordsDecode : Obligations.WorkedWordsDecode := by
  unfold Obligations.WorkedWordsDecode
  decide

end Sys2Proof
end

section
/-!
PROOFS. The cycle family (spec/40_cycle.md R90 and R92): the two bytes of a fetched word, and what STEP does.
-/

namespace Sys2Proof

/-! ## The fetch -/

/-- The high byte of a word made of two bytes is the first. -/
theorem wordOfBytes_high (hi lo : Byte) : (wordOfBytes hi lo).extractLsb' 8 8 = hi :=
  BitVec.extractLsb'_append_eq_left

/-- The low byte of a word made of two bytes is the second. -/
theorem wordOfBytes_low (hi lo : Byte) : (wordOfBytes hi lo).extractLsb' 0 8 = lo :=
  BitVec.extractLsb'_append_eq_right

namespace Machine

/-- The cell of an address's successor (20_memory.md R51). It is the next one modulo 4096 also where the address itself
wraps, since 4096 divides 2^16. -/
theorem memIndex_succ (a : Word) : memIndex (a + 1) = (a.toNat + 1) % 4096 :=
  Nat.mod_mod_of_dvd (a.toNat + 1) (by decide : 4096 ∣ 2 ^ 16)

/-- Settles O6: the fetch puts the byte at pc above the byte at pc + 1, and pc + 1 selects the next cell modulo 4096. -/
theorem fetchIsBigEndian : Obligations.FetchIsBigEndian := by
  intro s
  constructor
  · exact wordOfBytes_high _ _
  · calc s.fetch.extractLsb' 0 8
      _ = Memory.read s.mem (memIndex (s.pc + 1)) := wordOfBytes_low _ _
      _ = Memory.read s.mem ((s.pc.toNat + 1) % 4096) := by rw [memIndex_succ]

/-! ## STEP -/

/-- Settles O7: STEP with and without its input is one gated cycle, on two ways to run an instruction; a latched cycle
answers its own state, and an unlatched one on a word that decodes runs the instruction. -/
theorem stepIsOneCycle : Obligations.StepIsOneCycle := by
  constructor
  · intro s r rnd hlatched
    exact ⟨gatedCycle_latched hlatched, gatedCycle_latched hlatched⟩
  · intro s i rnd hfree hdecoded
    exact ⟨gatedCycle_instr hfree hdecoded, gatedCycle_instr hfree hdecoded⟩

end Machine

end Sys2Proof
end

section
/-!
PROOFS. The arithmetic family (spec/42_alu.md R124 to R127): what the register writes leave alone, what an operation with a
result and a flag completes with, and the operations that are of that form.
-/

namespace Sys2Proof.Machine

/-! ## Frames of the register writes -/

section Frames
variable {parts : List StatePart} {s t : State}

/-- A register that the frame lists may be written. -/
theorem SameBut.setReg (h : SameBut parts s t) {r : Reg} (hr : .reg r ∈ parts) (b : Byte) :
    SameBut parts s (t.setReg r b) := by
  refine h.trans fun p hp => ?_
  cases p with
  | reg r' =>
    have hne : r' ≠ r := fun e => hp (e ▸ hr)
    exact (t.reg_setReg r r' b).trans (if_neg hne)
  | _ => simp [StatePart.Same]

/-- The flag may be written where the frame lists VF. -/
theorem SameBut.setFlag (h : SameBut parts s t) (hr : .reg VF ∈ parts) (f : Bool) : SameBut parts s (t.setFlag f) :=
  h.setReg hr _

/-- The logic operations' flag writes VF or nothing. -/
theorem SameBut.logicFlag (h : SameBut parts s t) (hr : .reg VF ∈ parts) : SameBut parts s t.logicFlag := by
  obtain heq | ⟨-, heq⟩ := t.logicFlag_eq
  · rwa [heq]
  · rw [heq]; exact h.setFlag hr false

/-- The program counter may be written where the frame lists it. -/
theorem SameBut.setPc (h : SameBut parts s t) (hpc : .pc ∈ parts) (w : Word) : SameBut parts s (t.setPc w) := by
  refine h.trans fun p hp => ?_
  cases p with
  | pc => exact absurd hpc hp
  | _ => simp [StatePart.Same]

/-- Advancing writes the program counter alone. -/
theorem SameBut.advance (h : SameBut parts s t) (hpc : .pc ∈ parts) : SameBut parts s t.advance :=
  h.setPc hpc _

end Frames

/-! ## Completion with a result and a flag -/

/-- An operation that writes its result, then its flag, then advances. -/
theorem WritesRegisterAndFlag.of_setFlag {i : Instr} {s : State} {x : Reg} {b : Byte} {f : Bool}
    (h : exec i s = .next ((s.setReg x b).setFlag f).advance) :
    WritesRegisterAndFlag i s x b (if f then 1 else 0) := by
  refine ⟨_, h, fun hx => ?result, ?flag, rfl, ?frame⟩
  case result => simp [hx]
  case flag => simp
  case frame => exact (((SameBut.refl _ s).setReg (by simp) b).setFlag (by simp) f).advance (by simp)

/-- An operation that writes its result, then the logic operations' flag, then advances. -/
theorem WritesRegisterAndFlag.of_logicFlag {i : Instr} {s : State} {x : Reg} {b : Byte}
    (h : exec i s = .next (s.setReg x b).logicFlag.advance) :
    WritesRegisterAndFlag i s x b (if s.q.vfReset then 0 else if x = VF then b else s.reg VF) := by
  refine ⟨_, h, fun hx => ?result, ?flag, ?pc, ?frame⟩
  case result => simp [hx]
  case flag => simp [@eq_comm _ x VF]
  case pc => simp
  case frame => exact (((SameBut.refl _ s).setReg (by simp) b).logicFlag (by simp)).advance (by simp)

/-! ## The logic operations -/

/-- Settles O25: the three operations write their result, then the logic operations' flag. -/
theorem logicOperations : Obligations.LogicOperations := by
  intro x y s
  exact ⟨.of_logicFlag rfl, .of_logicFlag rfl, .of_logicFlag rfl⟩

/-! ## The addition -/

/-- The sum of two bytes is their sum as numbers modulo 2^8. -/
theorem byte_add_eq_ofNat (a b : Byte) : a + b = BitVec.ofNat 8 ((a.toNat + b.toNat) % 256) :=
  BitVec.eq_of_toNat_eq (by simp)

/-- The carry as the value of the flag (42_alu.md R127). -/
theorem carry_flag (a b : Byte) : (if carry a b then 1 else 0 : Byte) = if a.toNat + b.toNat > 255 then 1 else 0 := by
  simp [carry]

/-- Settles O26: the sum is written first and the carry after it. -/
theorem addSetsCarry : Obligations.AddSetsCarry := by
  intro x y s
  rw [← byte_add_eq_ofNat, ← carry_flag]
  exact .of_setFlag rfl

end Sys2Proof.Machine
end

section
/-!
PROOFS. The index and memory family (spec/43_index_memory.md R143): the frame of a store of bytes, and the three digits that
LD B stores.
-/

namespace Sys2Proof.Machine

/-- Memory may be written where the frame lists it. -/
theorem SameBut.memWriteList {parts : List StatePart} {s t : State} (h : SameBut parts s t) (hmem : .mem ∈ parts)
    (a : Word) (bs : List Byte) : SameBut parts s (t.memWriteList a bs) := by
  refine h.trans fun p hp => ?_
  cases p with
  | mem => exact absurd hmem hp
  | _ => simp [StatePart.Same]

/-- The digits are three bytes. -/
@[simp] theorem bcdDigits_length (b : Byte) : (bcdDigits b).length = 3 := rfl

/-- The digit of index `k` is read back at `a + k`. -/
theorem State.memRead_memWriteList_bcdDigits {s : State} (hs : s.Inv) (a : Word) (b : Byte) {k : Nat}
    (hk : k < (bcdDigits b).length) :
    (s.memWriteList a (bcdDigits b)).memRead (a + BitVec.ofNat 16 k) = (bcdDigits b)[k] :=
  State.memRead_memWriteList _ hs (by simp) hk

/-- An address that selects none of the three cells reads as before. -/
theorem State.memRead_memWriteList_bcdDigits_of_ne {s : State} (hs : s.Inv) {a c : Word} (b : Byte)
    (h0 : memIndex c ≠ memIndex a) (h1 : memIndex c ≠ memIndex (a + 1)) (h2 : memIndex c ≠ memIndex (a + 2)) :
    (s.memWriteList a (bcdDigits b)).memRead c = s.memRead c := by
  refine State.memRead_memWriteList_of_ne _ hs fun k hk => ?_
  match k, hk with
  | 0, _ => simpa using h0
  | 1, _ => exact h1
  | 2, _ => exact h2

/-- Settles O31: LD B stores the list of three digits at I, then advances; each digit is read back at its own address. -/
theorem bcdStoresThreeDigits : Obligations.BcdStoresThreeDigits := by
  intro x s
  refine ⟨_, rfl, ?pc, ?frame, fun hs => ⟨?hundreds, ?tens, ?units, fun a h0 h1 h2 => ?others⟩⟩
  case pc => simp
  case frame => exact ((SameBut.refl _ s).memWriteList (by simp) _ _).advance (by simp)
  case hundreds =>
    simpa [bcdDigits] using State.memRead_memWriteList_bcdDigits hs s.i (s.reg x) (k := 0) (by simp)
  case tens => exact State.memRead_memWriteList_bcdDigits hs s.i (s.reg x) (k := 1) (by simp)
  case units => exact State.memRead_memWriteList_bcdDigits hs s.i (s.reg x) (k := 2) (by simp)
  case others => exact State.memRead_memWriteList_bcdDigits_of_ne hs _ h0 h1 h2

end Sys2Proof.Machine
end

section
/-!
PROOFS. The display family (spec/44_display.md R161): the frame of a write of the display, and the cleared screen.
-/

namespace Sys2Proof.Machine

/-- The display may be written where the frame lists it. -/
theorem SameBut.setDisp {parts : List StatePart} {s t : State} (h : SameBut parts s t) (hdisp : .disp ∈ parts)
    (d : Display) : SameBut parts s (t.setDisp d) := by
  refine h.trans fun p hp => ?_
  cases p with
  | disp => exact absurd hdisp hp
  | _ => simp [StatePart.Same]

/-- Settles O36: CLS writes the cleared display, then advances. -/
theorem clearScreen : Obligations.ClearScreen := by
  intro s
  refine ⟨_, rfl, ?pixels, ?pc, ?frame⟩
  case pixels => exact Display.pixel_clear
  case pc => simp
  case frame => exact ((SameBut.refl _ s).setDisp (by simp) _).advance (by simp)

end Sys2Proof.Machine
end

section
/-!
PROOFS. The exceptions family (spec/60_exceptions.md R200): what completes, from one instruction up to a run of transactions.
-/

namespace Sys2Proof.Machine

/-! ## Instructions and cycles -/

/-- No instruction has an operand or a state it faults on: each meaning answers its next state on every path. -/
theorem exec_completes (i : Instr) (s : State) : ∃ t, exec i s = .next t := by
  cases i <;> exact ⟨_, rfl⟩

/-- On a given byte too: only CXKK reads it, and it completes on every byte. -/
theorem execWith_completes (rnd : Byte) (i : Instr) (s : State) : ∃ t, execWith rnd i s = .next t := by
  obtain heq | ⟨x, kk, -, heq⟩ := execWith_cases rnd i s
  · rw [heq]; exact exec_completes i s
  · exact ⟨_, heq⟩

/-- A cycle can stop only where its instructions do: a latched cycle and an unrecognised word complete by themselves. -/
theorem gatedCycle_completes {run : Instr → State → Result} (hrun : ∀ i s, ∃ t, run i s = .next t) (s : State) :
    ∃ t, gatedCycle run s = .next t := by
  obtain ⟨r, -, hlatched⟩ | ⟨i, -, -, hinstr⟩ | ⟨why, -, -, hnop⟩ := gatedCycle_cases run s
  · exact ⟨s, hlatched⟩
  · rw [hinstr]; exact hrun i s
  · exact ⟨s.advance, hnop⟩

/-- STEP on the free byte completes. -/
theorem step_completes (s : State) : ∃ t, step s = .next t :=
  gatedCycle_completes exec_completes s

/-- STEP completes on every byte. -/
theorem stepWith_completes (rnd : Byte) (s : State) : ∃ t, stepWith rnd s = .next t :=
  gatedCycle_completes (execWith_completes rnd) s

/-! ## Transactions and their runs -/

/-- STEP is the only transaction that runs an instruction; the others answer a next state outright, LOAD and KEY also where
they report an error to the host (60_exceptions.md R206). -/
theorem transact_completes (tr : Transaction) (s : State) (font : Font) : ∃ t, transact tr s font = .next t := by
  cases tr with
  | step rnd => exact stepWith_completes rnd s
  | _ => exact ⟨_, rfl⟩

/-- A run goes on from the state its first transaction answers. -/
theorem runTransactions_cons_of_next {tr : Transaction} {s s' : State} {font : Font} (ts : List Transaction)
    (h : transact tr s font = .next s') : runTransactions (tr :: ts) s font = runTransactions ts s' font := by
  simp [runTransactions, h]

/-- Every run completes, by induction on its transactions from any state. -/
theorem safeRun (ts : List Transaction) (s : State) (font : Font) : SafeRun ts s font := by
  induction ts generalizing s with
  | nil => exact ⟨s, rfl⟩
  | cons tr ts ih =>
    obtain ⟨s', hs'⟩ := transact_completes tr s font
    obtain ⟨t, ht⟩ := ih s'
    exact ⟨t, (runTransactions_cons_of_next ts hs').trans ht⟩

/-- Settles O8: instructions complete by their definitions, so cycles, transactions and runs of them do. -/
theorem everyStepCompletes : Obligations.EveryStepCompletes :=
  ⟨exec_completes, step_completes, transact_completes, safeRun⟩

end Sys2Proof.Machine
end

section
/-!
PROOFS. What one instruction writes (spec/10_state.md R34): the frames of the remaining updates of the state, and with them
the frame of every instruction, from which VF's list (R21) and what a program leaves to the host (60_exceptions.md R207)
are read off.
-/

namespace Sys2Proof.Machine

/-! ## Frames of the remaining updates -/

section Frames
variable {parts : List StatePart} {s t u : State}

/-- A change of one part, where the frame lists that part. -/
theorem SameBut.trans_part (h : SameBut parts s t) {part : StatePart} (hpart : part ∈ parts)
    (hu : ∀ p, p ≠ part → p.Same t u) : SameBut parts s u :=
  h.trans fun p hp => hu p fun e => hp (e ▸ hpart)

/-- I may be written where the frame lists it. -/
theorem SameBut.setI (h : SameBut parts s t) (hi : .i ∈ parts) (w : Word) : SameBut parts s (t.setI w) :=
  h.trans_part hi fun p hp => by cases p <;> simp_all [StatePart.Same]

/-- DT may be written where the frame lists it. -/
theorem SameBut.setDt (h : SameBut parts s t) (hdt : .dt ∈ parts) (b : Byte) : SameBut parts s (t.setDt b) :=
  h.trans_part hdt fun p hp => by cases p <;> simp_all [StatePart.Same]

/-- ST may be written where the frame lists it. -/
theorem SameBut.setSt (h : SameBut parts s t) (hst : .st ∈ parts) (b : Byte) : SameBut parts s (t.setSt b) :=
  h.trans_part hst fun p hp => by cases p <;> simp_all [StatePart.Same]

/-- The latch may be written where the frame lists it. -/
theorem SameBut.setLatch (h : SameBut parts s t) (hl : .latch ∈ parts) (l : Option Reg) :
    SameBut parts s (t.setLatch l) :=
  h.trans_part hl fun p hp => by cases p <;> simp_all [StatePart.Same]

/-- A key flag may be written where the frame lists the keys. -/
theorem SameBut.setKey (h : SameBut parts s t) (hk : .keys ∈ parts) (k : Fin 16) (pressed : Bool) :
    SameBut parts s (t.setKey k pressed) :=
  h.trans_part hk fun p hp => by cases p <;> simp_all [StatePart.Same]

/-- Q may be written where the frame lists it. -/
theorem SameBut.setQ (h : SameBut parts s t) (hq : .q ∈ parts) (q : Quirks) : SameBut parts s (t.setQ q) :=
  h.trans_part hq fun p hp => by cases p <;> simp_all [StatePart.Same]

/-- A random byte may be counted where the frame lists the draws. -/
theorem SameBut.countDraw (h : SameBut parts s t) (hd : .draws ∈ parts) : SameBut parts s t.countDraw :=
  h.trans_part hd fun p hp => by cases p <;> simp_all [StatePart.Same]

/-- A pop moves the stack pointer alone. -/
theorem SameBut.pop (h : SameBut parts s t) (hsp : .sp ∈ parts) : SameBut parts s t.pop :=
  h.trans_part hsp fun p hp => by cases p <;> simp_all [StatePart.Same]

/-- A push moves the stack pointer and writes a stack entry. -/
theorem SameBut.push (h : SameBut parts s t) (hsp : .sp ∈ parts) (hstack : .stack ∈ parts) (w : Word) :
    SameBut parts s (t.push w) := by
  refine h.trans fun p hp => ?_
  cases p with
  | sp => exact absurd hsp hp
  | stack => exact absurd hstack hp
  | _ => simp [StatePart.Same]

/-- A skip writes the program counter alone. -/
theorem SameBut.skipIf (h : SameBut parts s t) (hpc : .pc ∈ parts) (cond : Bool) : SameBut parts s (t.skipIf cond) :=
  h.setPc hpc _

/-- A block load writes V[0] to V[X] alone. -/
theorem SameBut.loadRegsUpTo (h : SameBut parts s t) {x : Reg} (hr : ∀ r : Reg, r ≤ x → .reg r ∈ parts) :
    SameBut parts s (t.loadRegsUpTo x) := by
  refine h.trans fun p hp => ?_
  cases p with
  | reg r =>
    have hrx : ¬ r ≤ x := fun hle => hp (hr r hle)
    exact (t.reg_loadRegsUpTo x r).trans (if_neg hrx)
  | _ => simp [StatePart.Same]

end Frames

/-! ## The frame of every instruction -/

/-- The table lists V[0] to V[X] for the block load. -/
theorem reg_mem_writtenParts_loadRegs {x r : Reg} (h : r ≤ x) : .reg r ∈ writtenParts (.loadRegs x) := by
  simp [writtenParts, h]

/-- CXKK writes its register and counts its byte, whatever the byte. -/
theorem execRndWith_frame {rnd : Byte} {x : Reg} {kk : Byte} {s t : State} (h : execRndWith rnd x kk s = .next t) :
    SameBut (writtenParts (.rnd x kk)) s t := by
  cases h
  exact (((SameBut.refl _ s).setReg (by simp [writtenParts]) _).countDraw (by simp [writtenParts])).advance
    (by simp [writtenParts])

/-- Settles O52: each instruction is a composition of updates whose parts the table lists. -/
theorem instructionsWriteOnlyTheirParts : Obligations.InstructionsWriteOnlyTheirParts := by
  intro i s t h
  have start := SameBut.refl (writtenParts i) s
  cases i
  case rnd => exact execRndWith_frame h
  case loadRegs =>
    cases h
    exact ((start.loadRegsUpTo fun _ => reg_mem_writtenParts_loadRegs).setI (by simp [writtenParts]) _).advance
      (by simp [writtenParts])
  all_goals
    cases h
    simp only [writtenParts] at start ⊢
  case sys => exact start.advance (by simp)
  case jp | jpV0 => exact start.setPc (by simp) _
  case seImm | sneImm | seReg | sneReg | skp | sknp => exact start.skipIf (by simp) _
  case ret => exact (start.pop (by simp)).setPc (by simp) _
  case call => exact (start.push (by simp) (by simp) _).setPc (by simp) _
  case cls => exact (start.setDisp (by simp) _).advance (by simp)
  case drw => exact ((start.setDisp (by simp) _).setFlag (by simp) _).advance (by simp)
  case ldImm | addImm | ldReg | ldVxDt => exact (start.setReg (by simp) _).advance (by simp)
  case orReg | andReg | xorReg => exact ((start.setReg (by simp) _).logicFlag (by simp)).advance (by simp)
  case addReg | sub | shr | subn | shl => exact ((start.setReg (by simp) _).setFlag (by simp) _).advance (by simp)
  case ldI | addI | ldF => exact (start.setI (by simp) _).advance (by simp)
  case ldVxK => exact (start.setLatch (by simp) _).advance (by simp)
  case ldDtVx => exact (start.setDt (by simp) _).advance (by simp)
  case ldStVx => exact (start.setSt (by simp) _).advance (by simp)
  case ldB => exact (start.memWriteList (by simp) _ _).advance (by simp)
  case storeRegs => exact ((start.memWriteList (by simp) _ _).setI (by simp) _).advance (by simp)

end Sys2Proof.Machine
end

section
/-!
PROOFS. What follows from the frame of one instruction: VF's list (spec/10_state.md R21), the advance of pc (40_cycle.md
R94), what a program leaves to the host (60_exceptions.md R207), and where the random byte goes (40_cycle.md R97).
-/

namespace Sys2Proof.Machine

/-! ## VF -/

/-- A register that an instruction changes is one of its parts. -/
theorem reg_mem_writtenParts_of_ne {i : Instr} {s t : State} (h : exec i s = .next t) {r : Reg} (hr : t.reg r ≠ s.reg r) :
    .reg r ∈ writtenParts i := by
  by_contra hnot
  exact hr (instructionsWriteOnlyTheirParts i s t h _ hnot)

/-- A logic operation changes VF only with VFReset or as its destination. -/
theorem vfReset_or_dest_of_logicFlag_ne {s : State} {x : Reg} {b : Byte}
    (h : (s.setReg x b).logicFlag.advance.reg VF ≠ s.reg VF) : s.q.vfReset = true ∨ x = VF := by
  by_contra hnot
  obtain ⟨hq, hx⟩ := not_or.mp hnot
  exact h (by simp [hq, Ne.symm hx])

/-- Settles O53: VF is a part of the instruction, so by the table the instruction is a flag writer or has VF as its
destination; the logic operations list VF always, and are looked into. -/
theorem vfChangesOnlyWhereNamed : Obligations.VfChangesOnlyWhereNamed := by
  intro i s t h hvf
  have hpart := reg_mem_writtenParts_of_ne h hvf
  cases i
  case orReg | andReg | xorReg =>
    cases h
    obtain hq | rfl := vfReset_or_dest_of_logicFlag_ne hvf
    · simp [hq]
    · simp
  all_goals simp [writtenParts] at hpart
  case loadRegs x => simp [show x = VF from Fin.le_antisymm (Fin.le_last x) hpart]
  all_goals simp [hpart]

/-! ## The advance of pc -/

/-- An instruction that writes no target ends with `pc <- pc_next`. -/
theorem exec_pc_of_writesTarget_eq_false {i : Instr} {s t : State} (hi : writesTarget i = false)
    (h : exec i s = .next t) : t.pc = s.pc + 2 := by
  cases i <;> cases h
  case ret | jp | call | seImm | sneImm | seReg | sneReg | jpV0 | skp | sknp => cases hi
  all_goals simp

/-- Settles O54: the advance, read as a number. -/
theorem sequentialAdvance : Obligations.SequentialAdvance := by
  intro i s t hi h
  rw [exec_pc_of_writesTarget_eq_false hi h]
  exact BitVec.toNat_add s.pc 2

/-! ## The random byte -/

/-- Two ways to run instructions that agree on the word at pc give the same cycle. -/
theorem gatedCycle_congr {run run' : Instr → State → Result} {s : State}
    (h : ∀ i, decodeWord s.fetch = .ok i → run i s = run' i s) : gatedCycle run s = gatedCycle run' s := by
  obtain ⟨r, hl, hrun⟩ | ⟨i, hl, hd, hrun⟩ | ⟨why, hl, hd, hrun⟩ := gatedCycle_cases run s
  · rw [hrun, gatedCycle_latched hl]
  · rw [hrun, gatedCycle_instr hl hd, h i hd]
  · rw [hrun, gatedCycle_unrecognised hl hd]

/-- Without an input, an instruction is that on the free byte. -/
theorem exec_eq_execWith_freeByte (i : Instr) (s : State) : exec i s = execWith s.freeByte i s := by
  cases i <;> rfl

/-- Only CXKK reads the random byte. -/
theorem execWith_eq_exec {rnd : Byte} {i : Instr} {s : State} (h : ∀ x kk, i ≠ .rnd x kk) :
    execWith rnd i s = exec i s := by
  obtain heq | ⟨x, kk, hi, -⟩ := execWith_cases rnd i s
  · exact heq
  · exact absurd hi (h x kk)

/-- STEP without an input is STEP on its free byte (log entry 1). -/
theorem step_eq_stepWith_freeByte (s : State) : step s = stepWith s.freeByte s :=
  gatedCycle_congr fun i _ => exec_eq_execWith_freeByte i s

/-- Settles O9: the cycle is the same where the instruction at pc is. -/
theorem randomByteReachesOnlyRnd : Obligations.RandomByteReachesOnlyRnd := by
  refine ⟨step_eq_stepWith_freeByte, fun rnd rnd' s hword => gatedCycle_congr fun i hd => ?_⟩
  have hi : ∀ x kk, i ≠ .rnd x kk := fun x kk e => hword x kk (e ▸ hd)
  rw [execWith_eq_exec hi, execWith_eq_exec hi]

/-- A claim about one STEP, on the free byte or on a given one, is one about STEP on some byte. -/
theorem exists_stepWith_of_step {s t : State} {rnd : Byte} (h : step s = .next t ∨ stepWith rnd s = .next t) :
    ∃ rnd', stepWith rnd' s = .next t := by
  obtain h | h := h
  · exact ⟨s.freeByte, step_eq_stepWith_freeByte s ▸ h⟩
  · exact ⟨rnd, h⟩

/-! ## What a program leaves to the host -/

/-- On a given byte too an instruction writes only its parts. -/
theorem execWith_frame {rnd : Byte} {i : Instr} {s t : State} (h : execWith rnd i s = .next t) :
    SameBut (writtenParts i) s t := by
  obtain heq | ⟨x, kk, rfl, heq⟩ := execWith_cases rnd i s
  · exact instructionsWriteOnlyTheirParts i s t (heq ▸ h)
  · exact execRndWith_frame (heq ▸ h)

/-- No instruction writes Q (10_state.md R30). -/
theorem q_notMem_writtenParts (i : Instr) : .q ∉ writtenParts i := by
  cases i <;> simp [writtenParts]

/-- No instruction writes a key flag (10_state.md R28). -/
theorem keys_notMem_writtenParts (i : Instr) : .keys ∉ writtenParts i := by
  cases i <;> simp [writtenParts]

/-- The latch after an unlatched instruction is set only by LD Vx, K. -/
theorem execWith_latch {rnd : Byte} {i : Instr} {s t : State} (h : execWith rnd i s = .next t) {r : Reg}
    (hs : s.latch = none) (ht : t.latch = some r) : i = .ldVxK r := by
  have hpart : .latch ∈ writtenParts i := by
    by_contra hnot
    have hsame : t.latch = s.latch := execWith_frame h _ hnot
    simp [hsame, hs] at ht
  cases i
  case ldVxK x =>
    cases h
    cases ht
    rfl
  all_goals simp [writtenParts] at hpart

/-- Settles O51: a latched step changes nothing; an unlatched one runs an instruction, whose parts are none of the host's
but the latch, or only advances. -/
theorem programsLeaveHostState : Obligations.ProgramsLeaveHostState := by
  intro rnd s t h
  obtain ⟨rnd', h⟩ := exists_stepWith_of_step h
  obtain ⟨r, hl, hrun⟩ | ⟨i, hl, hd, hrun⟩ | ⟨why, hl, hd, hrun⟩ := gatedCycle_cases (execWith rnd') s
  · cases hrun.symm.trans h
    exact ⟨rfl, fun _ => rfl, fun _ hr => hr, fun _ hr => .inl hr⟩
  · have hexec := hrun.symm.trans h
    have hframe := execWith_frame hexec
    refine ⟨hframe _ (q_notMem_writtenParts i), hframe _ (keys_notMem_writtenParts i), fun r hr => ?_, fun r hr => ?_⟩
    · simp [hl] at hr
    · exact .inr ⟨hl, execWith_latch hexec hl hr ▸ hd⟩
  · cases hrun.symm.trans h
    exact ⟨rfl, fun _ => rfl, fun _ hr => hr, fun _ hr => .inl hr⟩

end Sys2Proof.Machine
end

section
/-!
PROOFS. The canonical form of memory (log entry 5): every step and every run of transactions keeps it, and a memory has one
canonical form.
-/

namespace Sys2Proof.Machine

/-! ## Steps -/

/-- What an instruction does to memory: the store of some bytes, none for every instruction but FX33 and FX55. -/
theorem exec_mem {i : Instr} {s t : State} (h : exec i s = .next t) :
    ∃ a bs, t.mem = (s.memWriteList a bs).mem := by
  cases i <;> cases h
  case ldB x => exact ⟨s.i, bcdDigits (s.reg x), by simp⟩
  case storeRegs x => exact ⟨s.i, s.regsUpTo x, by simp⟩
  all_goals exact ⟨0, [], by simp [State.memWriteList]⟩

/-- An instruction keeps the canonical form, since a store of bytes does. -/
theorem exec_inv {i : Instr} {s t : State} (hs : s.Inv) (h : exec i s = .next t) : t.Inv := by
  obtain ⟨a, bs, hmem⟩ := exec_mem h
  exact (hs.memWriteList bs a).of_mem hmem

/-- On a given byte too: CXKK leaves memory as it is. -/
theorem execWith_inv {rnd : Byte} {i : Instr} {s t : State} (hs : s.Inv) (h : execWith rnd i s = .next t) : t.Inv := by
  obtain heq | ⟨x, kk, -, heq⟩ := execWith_cases rnd i s
  · exact exec_inv hs (heq ▸ h)
  · cases heq.symm.trans h
    exact hs

/-- STEP keeps the canonical form: only its instruction can write memory. -/
theorem stepWith_inv {rnd : Byte} {s t : State} (hs : s.Inv) (h : stepWith rnd s = .next t) : t.Inv := by
  obtain ⟨r, -, hrun⟩ | ⟨i, -, -, hrun⟩ | ⟨why, -, -, hrun⟩ := gatedCycle_cases (execWith rnd) s
  · cases hrun.symm.trans h
    exact hs
  · exact execWith_inv hs (hrun.symm.trans h)
  · cases hrun.symm.trans h
    exact hs

/-- Settles O12: STEP without an input is STEP on its free byte, so one lemma serves both. -/
theorem stepKeepsCanonicalMemory : Obligations.StepKeepsCanonicalMemory := by
  intro s t rnd hs h
  obtain ⟨rnd', h⟩ := exists_stepWith_of_step h
  exact stepWith_inv hs h

/-! ## Runs of transactions -/

/-- What every transaction of a list keeps, a run of the list keeps. -/
theorem runTransactions_keeps {P : State → Prop} {font : Font} {ts : List Transaction}
    (hkeep : ∀ tr ∈ ts, ∀ s t, P s → transact tr s font = .next t → P t) {s t : State} (hs : P s)
    (h : runTransactions ts s font = .next t) : P t := by
  induction ts generalizing s with
  | nil => cases h; exact hs
  | cons tr ts ih =>
    obtain ⟨s', hs'⟩ := transact_completes tr s font
    rw [runTransactions_cons_of_next ts hs'] at h
    exact ih (fun tr' htr' => hkeep tr' (List.mem_cons_of_mem tr htr')) (hkeep tr List.mem_cons_self s s' hs hs') h

/-- A release of a key writes a register and the latch. -/
@[simp] theorem State.resolveWait_mem (s : State) (k : Fin 16) : (s.resolveWait k).mem = s.mem := by
  unfold State.resolveWait; split <;> rfl

/-- LOAD leaves canonical memory, from any state. -/
theorem load_inv (rom : List Byte) (s : State) (font : Font) : (load rom s font).2.Inv := by
  unfold load
  split
  · exact s.loadReset_inv font
  · exact (s.loadReset_inv font).memWriteList rom _

/-- KEY leaves memory as it is. -/
@[simp] theorem key_mem (k : Nat) (pressed : Bool) (s : State) : (key k pressed s).2.mem = s.mem := by
  unfold key
  split
  · rfl
  · cases pressed <;> simp

/-- Every transaction keeps the canonical form: LOAD and STEP can write memory, the others leave it. -/
theorem transact_inv {tr : Transaction} {s t : State} {font : Font} (hs : s.Inv) (h : transact tr s font = .next t) :
    t.Inv := by
  cases tr
  case step rnd => exact stepWith_inv hs h
  all_goals cases h
  case load rom => exact load_inv rom s font
  case key k pressed => exact hs.of_mem (key_mem k pressed s)
  all_goals exact hs

/-- Settles O13: the canonical form is an invariant of every transaction. -/
theorem runsKeepCanonicalMemory : Obligations.RunsKeepCanonicalMemory := by
  intro ts s t font hs h
  exact runTransactions_keeps (P := State.Inv) (fun tr _ s t hs h => transact_inv hs h) hs h

/-! ## Uniqueness -/

namespace Memory

/-- A canonical list that lists a byte reads differently, at that address, from one that starts above it. -/
theorem read_head_ne {lo a : Nat} {v : Byte} {m m' : Memory} (hm : wfFrom lo ((a, v) :: m) = true)
    (hm' : wfFrom (a + 1) m' = true) : read ((a, v) :: m) a ≠ read m' a := by
  obtain ⟨-, -, hv, -⟩ := wfFrom_cons.1 hm
  rw [read_below (Nat.lt_succ_self a) hm', read, if_pos rfl]
  exact hv

/-- Canonical lists from a bound that read alike from there on are equal: their first cells have to agree, and the rest
reads alike above them. -/
theorem eq_of_wfFrom_of_read_eq {lo : Nat} {m m' : Memory} (hm : wfFrom lo m = true) (hm' : wfFrom lo m' = true)
    (h : ∀ a, lo ≤ a → a < 4096 → read m a = read m' a) : m = m' := by
  induction m generalizing lo m' with
  | nil =>
    cases m' with
    | nil => rfl
    | cons c m' =>
      obtain ⟨hb, hlt, -, -⟩ := wfFrom_cons.1 hm'
      exact absurd (h _ hb hlt).symm (read_head_ne hm' rfl)
  | cons c m ih =>
    obtain ⟨a, v⟩ := c
    obtain ⟨ha, halt, hv, htail⟩ := wfFrom_cons.1 hm
    cases m' with
    | nil => exact absurd (h a ha halt) (read_head_ne hm rfl)
    | cons c' m' =>
      obtain ⟨b, w⟩ := c'
      obtain ⟨hb, hblt, hw, htail'⟩ := wfFrom_cons.1 hm'
      obtain hab | rfl | hba := Nat.lt_trichotomy a b
      · exact absurd (h a ha halt) (read_head_ne hm (wfFrom_cons.2 ⟨hab, hblt, hw, htail'⟩))
      · have hvw : v = w := by simpa [read] using h a ha halt
        have hread : ∀ c, a + 1 ≤ c → c < 4096 → read m c = read m' c := fun c hc hclt => by
          have hne : a ≠ c := by omega
          simpa [read, hne] using h c (by omega) hclt
        rw [hvw, ih htail htail' hread]
      · exact absurd (h b hb hblt).symm (read_head_ne hm' (wfFrom_cons.2 ⟨hba, halt, hv, htail⟩))

end Memory

/-- Settles O14, by induction on the two lists from the address 0 up. -/
theorem canonicalMemoryIsUnique : Obligations.CanonicalMemoryIsUnique := by
  intro m m' hm hm' h
  exact Memory.eq_of_wfFrom_of_read_eq hm hm' fun a _ ha => h a ha

end Sys2Proof.Machine
end

section
/-!
PROOFS. Runs of the host's transactions (spec/60_exceptions.md): TICK after TICK, and a wait that only a key release or a
LOAD ends (R216).
-/

namespace Sys2Proof.Machine

/-! ## TICK -/

/-- A timer's tick as a number: one less, and 0 stays 0. -/
theorem timerTick_toNat (b : Byte) : (timerTick b).toNat = b.toNat - 1 := by
  unfold timerTick
  split
  · next hpos => exact BitVec.toNat_sub_of_le (y := 1) hpos
  · omega

/-- TICK takes one from the delay timer. -/
theorem tick_dt_toNat (s : State) : (tick s).dt.toNat = s.dt.toNat - 1 := timerTick_toNat s.dt

/-- TICK takes one from the sound timer. -/
theorem tick_st_toNat (s : State) : (tick s).st.toNat = s.st.toNat - 1 := timerTick_toNat s.st

/-- TICK writes the timers where the frame lists both. -/
theorem SameBut.tick {parts : List StatePart} {s t : State} (h : SameBut parts s t) (hdt : .dt ∈ parts)
    (hst : .st ∈ parts) : SameBut parts s (tick t) :=
  (h.setDt hdt _).setSt hst _

/-- Settles O41: each timer is ticked by itself. -/
theorem tickDecrements : Obligations.TickDecrements := by
  intro s font
  refine ⟨tick s, rfl, fun _ => ?dt, fun hdt => ?dt0, fun _ => ?st, fun hst => ?st0, ?frame⟩
  case dt => exact tick_dt_toNat s
  case dt0 => simp [tick, timerTick, hdt]
  case st => exact tick_st_toNat s
  case st0 => simp [tick, timerTick, hst]
  case frame => exact (SameBut.refl _ s).tick (by simp) (by simp)

/-- Settles O42, by induction on the number of TICKs from any state. -/
theorem ticksCountDown : Obligations.TicksCountDown := by
  intro n s font
  induction n generalizing s with
  | zero => exact ⟨s, rfl, rfl, rfl, SameBut.refl _ s⟩
  | succ n ih =>
    obtain ⟨t, hrun, hdt, hst, hframe⟩ := ih (tick s)
    have hfirst := (SameBut.refl [.dt, .st] s).tick (by simp) (by simp)
    refine ⟨t, (runTransactions_cons_of_next _ rfl).trans hrun, ?_, ?_, hfirst.trans hframe⟩
    · rw [hdt, tick_dt_toNat]; omega
    · rw [hst, tick_st_toNat]; omega

/-! ## The wait -/

/-- A wait on register `r` that began in `s`: the latch holds, and nothing but the timers, the keys and Q has moved. -/
def WaitingSince (s : State) (r : Reg) (t : State) : Prop := t.latch = some r ∧ SameBut [.dt, .st, .keys, .q] s t

/-- KEY of an invalid code changes nothing. -/
theorem key_of_gt {k : Nat} (hk : k > 15) (pressed : Bool) (s : State) : key k pressed s = (.invalidKeyCode, s) := by
  simp [key, hk]

/-- KEY of a valid code pressed records it and does nothing else. -/
theorem key_press {k : Nat} (hk : k ≤ 15) (s : State) : key k true s = (.ok, s.setKey (Fin.ofNat 16 k) true) := by
  simp [key, hk]

/-- KEY of a valid code released records it and resolves a wait. -/
theorem key_release {k : Nat} (hk : k ≤ 15) (s : State) :
    key k false s = (.ok, (s.setKey (Fin.ofNat 16 k) false).resolveWait (Fin.ofNat 16 k)) := by
  simp [key, hk]

/-- A press, or any transition of an invalid code, writes key flags alone. -/
theorem WaitingSince.key {s t : State} {r : Reg} (h : WaitingSince s r t) {k : Nat} {pressed : Bool}
    (hno : ¬ (k ≤ 15 ∧ pressed = false)) : WaitingSince s r (key k pressed t).2 := by
  obtain ⟨hlatch, hframe⟩ := h
  by_cases hk : k ≤ 15
  · obtain rfl : pressed = true := by simpa [hk] using hno
    rw [key_press hk]
    exact ⟨hlatch, hframe.setKey (by simp) _ _⟩
  · rw [key_of_gt (by omega)]
    exact ⟨hlatch, hframe⟩

/-- A transaction that is no LOAD and no release of a valid key leaves the wait pending. -/
theorem WaitingSince.transact {s t u : State} {r : Reg} (h : WaitingSince s r t) {tr : Transaction} {font : Font}
    (hload : ∀ rom, tr ≠ .load rom) (hrelease : ∀ k, k ≤ 15 → tr ≠ .key k false)
    (hu : transact tr t font = .next u) : WaitingSince s r u := by
  have ⟨hlatch, hframe⟩ := h
  cases tr
  case load rom => exact absurd rfl (hload rom)
  case step rnd =>
    cases (gatedCycle_latched hlatch).symm.trans hu
    exact h
  all_goals cases hu
  case tick => exact ⟨hlatch, hframe.tick (by simp) (by simp)⟩
  case setQuirks q => exact ⟨hlatch, hframe.setQ (by simp) q⟩
  case key k pressed => exact h.key fun ⟨hk, hp⟩ => hrelease k hk (hp ▸ rfl)
  all_goals exact h

/-- Settles O44: the wait is an invariant of every transaction that neither loads nor releases a key. -/
theorem waitEndsOnlyByReleaseOrLoad : Obligations.WaitEndsOnlyByReleaseOrLoad := by
  intro ts s t r font hlatch hts h
  have hkeep : ∀ tr ∈ ts, ∀ u w, WaitingSince s r u → transact tr u font = .next w → WaitingSince s r w :=
    fun tr htr u w hu hw => hu.transact (hts tr htr).1 (hts tr htr).2 hw
  exact runTransactions_keeps hkeep ⟨hlatch, SameBut.refl _ s⟩ h

end Sys2Proof.Machine
end

section
/-!
PROOFS. What a program cannot see (spec/10_state.md R35): two states that differ at most in bits 12 to 15 of I, of pc and of
the stack entries read alike, and every update on like values keeps them so; so does every instruction, and STEP.
-/

namespace Sys2Proof.Machine

/-! ## Addresses that select the same byte -/

/-- Such addresses select the same cell. -/
theorem SameAddress.memIndex_eq {a b : Word} (h : SameAddress a b) : memIndex a = memIndex b := h

/-- An address selects the same byte as itself. -/
theorem SameAddress.refl (a : Word) : SameAddress a a := rfl

/-- A sum on such addresses: 4096 divides 2^16, so the wrap does not show. -/
theorem SameAddress.add_right {a b : Word} (h : SameAddress a b) (k : Word) : SameAddress (a + k) (b + k) := by
  simp only [SameAddress, BitVec.toNat_add] at h ⊢
  omega

namespace SameToAProgram

variable {s t : State}

/-! ## Reads -/

/-- The registers read alike. -/
theorem reg_eq (h : SameToAProgram s t) (r : Reg) : t.reg r = s.reg r := State.reg_congr h.v r

/-- Memory reads alike at addresses that select the same byte. -/
theorem memRead_eq (h : SameToAProgram s t) {a b : Word} (hab : SameAddress b a) : t.memRead b = s.memRead a := by
  simp only [State.memRead, h.mem, hab.memIndex_eq]

/-- The fetch reads alike. -/
theorem fetch_eq (h : SameToAProgram s t) : t.fetch = s.fetch := by
  simp only [State.fetch, h.memRead_eq h.pc, h.memRead_eq (h.pc.add_right 1)]

/-- A block at I reads alike. -/
theorem memRead_blockAddress_eq (h : SameToAProgram s t) (k : Nat) :
    t.memRead (t.blockAddress k) = s.memRead (s.blockAddress k) :=
  h.memRead_eq (h.i.add_right _)

/-- The quirks are equal. -/
theorem q_eq (h : SameToAProgram s t) : t.q = s.q := by
  obtain ⟨-, -, -, -, -, -, hq, -⟩ := h.rest
  exact hq

/-- The delay timers are equal. -/
theorem dt_eq (h : SameToAProgram s t) : t.dt = s.dt := by
  obtain ⟨-, hdt, -⟩ := h.rest
  exact hdt

/-- The latches are equal. -/
theorem latch_eq (h : SameToAProgram s t) : t.latch = s.latch := by
  obtain ⟨-, -, -, -, -, hlatch, -⟩ := h.rest
  exact hlatch

/-- The key flags read alike. -/
theorem key_eq (h : SameToAProgram s t) (k : Fin 16) : t.key k = s.key k := by
  obtain ⟨-, -, -, -, hkeys, -⟩ := h.rest
  simp only [State.key, hkeys]

/-- A sprite draws alike. -/
theorem drawSprite_eq (h : SameToAProgram s t) (x0 y0 n : Nat) : t.drawSprite x0 y0 n = s.drawSprite x0 y0 n := by
  obtain ⟨-, -, -, hdisp, -, -, hq, -⟩ := h.rest
  simp only [State.drawSprite, h.memRead_blockAddress_eq, hdisp, hq]

/-- A pop returns addresses that select the same byte. -/
theorem top_same (h : SameToAProgram s t) : SameAddress t.top s.top := by
  obtain ⟨hsp, -⟩ := h.rest
  rw [State.top, State.top, hsp]
  exact h.stack s.sp

/-! ## Updates -/

theorem setReg (h : SameToAProgram s t) (r : Reg) {b b' : Byte} (hb : b' = b) :
    SameToAProgram (s.setReg r b) (t.setReg r b') :=
  { h with v := by simp [h.v, hb] }

theorem setFlag (h : SameToAProgram s t) {f f' : Bool} (hf : f' = f) : SameToAProgram (s.setFlag f) (t.setFlag f') :=
  h.setReg VF (by rw [hf])

theorem logicFlag (h : SameToAProgram s t) : SameToAProgram s.logicFlag t.logicFlag := by
  simp only [State.logicFlag, h.q_eq]
  split
  · exact h.setFlag rfl
  · exact h

theorem setI (h : SameToAProgram s t) {a b : Word} (hab : SameAddress b a) : SameToAProgram (s.setI a) (t.setI b) :=
  { h with i := hab }

theorem setPc (h : SameToAProgram s t) {a b : Word} (hab : SameAddress b a) : SameToAProgram (s.setPc a) (t.setPc b) :=
  { h with pc := hab }

theorem advance (h : SameToAProgram s t) : SameToAProgram s.advance t.advance := h.setPc (h.pc.add_right 2)

theorem skipIf (h : SameToAProgram s t) {c c' : Bool} (hc : c' = c) : SameToAProgram (s.skipIf c) (t.skipIf c') := by
  subst hc
  cases c'
  · exact h.setPc (h.pc.add_right 2)
  · exact h.setPc (h.pc.add_right 4)

theorem setDt (h : SameToAProgram s t) {b b' : Byte} (hb : b' = b) : SameToAProgram (s.setDt b) (t.setDt b') :=
  { h with rest := by simp [hb, h.rest] }

theorem setSt (h : SameToAProgram s t) {b b' : Byte} (hb : b' = b) : SameToAProgram (s.setSt b) (t.setSt b') :=
  { h with rest := by simp [hb, h.rest] }

theorem setLatch (h : SameToAProgram s t) (l : Option Reg) : SameToAProgram (s.setLatch l) (t.setLatch l) :=
  { h with rest := by simp [h.rest] }

theorem setDisp (h : SameToAProgram s t) {d d' : Display} (hd : d' = d) : SameToAProgram (s.setDisp d) (t.setDisp d') :=
  { h with rest := by simp [hd, h.rest] }

theorem countDraw (h : SameToAProgram s t) : SameToAProgram s.countDraw t.countDraw :=
  { h with rest := by simp [h.rest] }

theorem pop (h : SameToAProgram s t) : SameToAProgram s.pop t.pop :=
  { h with rest := by simp [h.rest] }

theorem push (h : SameToAProgram s t) {a b : Word} (hab : SameAddress b a) : SameToAProgram (s.push a) (t.push b) := by
  obtain ⟨hsp, hrest⟩ := h.rest
  refine { h with stack := fun j => ?_, rest := ⟨congrArg (· + 1) hsp, hrest⟩ }
  rw [State.stackEntry_push, State.stackEntry_push, hsp]
  split
  · exact hab
  · exact h.stack j

theorem memWrite (h : SameToAProgram s t) {a b : Word} (hab : SameAddress b a) (v : Byte) :
    SameToAProgram (s.memWrite a v) (t.memWrite b v) :=
  { h with mem := by simp [h.mem, hab.memIndex_eq] }

theorem memWriteList (h : SameToAProgram s t) {a b : Word} (hab : SameAddress b a) (bs : List Byte) :
    SameToAProgram (s.memWriteList a bs) (t.memWriteList b bs) := by
  induction bs generalizing s t a b with
  | nil => exact h
  | cons v bs ih => exact ih (h.memWrite hab v) (hab.add_right 1)

theorem loadRegsUpTo (h : SameToAProgram s t) (x : Reg) : SameToAProgram (s.loadRegsUpTo x) (t.loadRegsUpTo x) := by
  constructor <;> simp [h.memRead_blockAddress_eq, h.reg_eq, h.mem, h.i, h.pc, h.stack, h.rest]

/-! ## Instructions and STEP -/

/-- I after a block copy selects the same byte. -/
theorem blockNextI_same (h : SameToAProgram s t) (x : Reg) : SameAddress (t.blockNextI x) (s.blockNextI x) := by
  simp only [State.blockNextI, h.q_eq]
  split
  · exact h.i.add_right _
  · exact h.i

/-- Every instruction goes on alike: its updates are on values read alike. -/
theorem execWith (h : SameToAProgram s t) (rnd : Byte) (i : Instr) {s' : State} (hs : execWith rnd i s = .next s') :
    ∃ t', Machine.execWith rnd i t = .next t' ∧ SameToAProgram s' t' := by
  cases i <;> cases hs <;> refine ⟨_, rfl, ?_⟩
  case sys => exact h.advance
  case jp => exact h.setPc (.refl _)
  case jpV0 => exact h.setPc (by simp [State.jumpBase, h.q_eq, h.reg_eq, SameAddress])
  case call => exact (h.push h.pc).setPc (.refl _)
  case ret => exact h.pop.setPc (h.top_same.add_right 2)
  case seImm | sneImm | seReg | sneReg => exact h.skipIf (by simp [h.reg_eq])
  case skp | sknp => exact h.skipIf (by simp [h.reg_eq, h.key_eq])
  case cls => exact (h.setDisp rfl).advance
  case drw x y n =>
    have hd : t.drawSprite (t.startColumn x) (t.startRow y) n.val = s.drawSprite (s.startColumn x) (s.startRow y) n.val := by
      simp [State.startColumn, State.startRow, h.reg_eq, h.drawSprite_eq]
    exact ((h.setDisp (congrArg Drawing.disp hd)).setFlag (congrArg Drawing.hit hd)).advance
  case ldImm | addImm | ldReg => exact (h.setReg _ (by simp [h.reg_eq])).advance
  case ldVxDt => exact (h.setReg _ h.dt_eq).advance
  case orReg | andReg | xorReg => exact (h.setReg _ (by simp [h.reg_eq])).logicFlag.advance
  case addReg | sub | subn => exact ((h.setReg _ (by simp [h.reg_eq])).setFlag (by simp [h.reg_eq])).advance
  case shr x y | shl x y =>
    have hsource : t.shiftSource x y = s.shiftSource x y := by simp [State.shiftSource, h.q_eq, h.reg_eq]
    exact ((h.setReg _ (by rw [hsource])).setFlag (by rw [hsource])).advance
  case rnd => exact (h.setReg _ rfl).countDraw.advance
  case ldI => exact (h.setI (.refl _)).advance
  case addI x => exact (h.setI (by rw [h.reg_eq]; exact h.i.add_right _)).advance
  case ldF => exact (h.setI (by rw [h.reg_eq]; exact .refl _)).advance
  case ldVxK => exact (h.setLatch _).advance
  case ldDtVx => exact (h.setDt (h.reg_eq _)).advance
  case ldStVx => exact (h.setSt (h.reg_eq _)).advance
  case ldB => rw [h.reg_eq]; exact (h.memWriteList h.i _).advance
  case storeRegs x =>
    have hregs : t.regsUpTo x = s.regsUpTo x := by simp [State.regsUpTo, h.v]
    rw [hregs]
    exact ((h.memWriteList h.i _).setI (h.blockNextI_same x)).advance
  case loadRegs x => exact ((h.loadRegsUpTo x).setI (h.blockNextI_same x)).advance

end SameToAProgram

/-- Settles O55: the two states are latched together, and fetch the same word. -/
theorem hiddenBitsDoNotShow : Obligations.HiddenBitsDoNotShow := by
  intro rnd s t s' h hs
  obtain ⟨r, hl, hrun⟩ | ⟨i, hl, hd, hrun⟩ | ⟨why, hl, hd, hrun⟩ := gatedCycle_cases (execWith rnd) s
  · cases hrun.symm.trans hs
    exact ⟨t, gatedCycle_latched (h.latch_eq.trans hl), h⟩
  · obtain ⟨t', ht', hsame⟩ := h.execWith rnd i (hrun.symm.trans hs)
    exact ⟨t', (gatedCycle_instr (h.latch_eq.trans hl) (h.fetch_eq ▸ hd)).trans ht', hsame⟩
  · cases hrun.symm.trans hs
    exact ⟨t.advance, gatedCycle_unrecognised (h.latch_eq.trans hl) (h.fetch_eq ▸ hd), h.advance⟩

end Sys2Proof.Machine
end

section
/-!
PROOFS. The unrecognised words (spec/30_encoding.md R74): which they are, family by family, and that each is a no-operation.
-/

namespace Sys2Proof

/-! ## The families with unrecognised words -/

/-- Family 8 has no instruction exactly for the low digits it leaves out. -/
theorem decodeFamily8_error_iff (w : Word) :
    (∃ why, decodeFamily8 w = .error why) ↔ w.toNat % 16 ∈ [0x8, 0x9, 0xA, 0xB, 0xC, 0xD, 0xF] := by
  have hlt := (fieldN w).isLt
  rw [← fieldN_val]
  unfold decodeFamily8
  split
  case h_10 => grind
  all_goals next hn => simp [hn]

/-- Family E has no instruction exactly for the low bytes but 9E and A1. -/
theorem decodeFamilyE_error_iff (w : Word) :
    (∃ why, decodeFamilyE w = .error why) ↔ w.toNat % 256 ∉ [0x9E, 0xA1] := by
  rw [← fieldKK_toNat]
  unfold decodeFamilyE
  split
  case h_3 h9E hA1 => simpa using ⟨h9E, hA1⟩
  all_goals next hkk => simp [hkk]

/-- Family F has no instruction exactly for the low bytes but its nine sub-operations. -/
theorem decodeFamilyF_error_iff (w : Word) :
    (∃ why, decodeFamilyF w = .error why) ↔
      w.toNat % 256 ∉ [0x07, 0x0A, 0x15, 0x18, 0x1E, 0x29, 0x33, 0x55, 0x65] := by
  rw [← fieldKK_toNat]
  unfold decodeFamilyF
  split
  case h_10 => simp_all
  all_goals next hkk => simp [hkk]

/-- A line of the decoder that needs N = 0 has no instruction exactly for the other low digits. -/
theorem ite_fieldN_error_iff (w : Word) (i : Instr) (why : Unrecognised) :
    (∃ why', (if fieldN w = 0 then .ok i else .error why : Except Unrecognised Instr) = .error why') ↔
      w.toNat % 16 ≠ 0 := by
  rw [← fieldN_val]
  by_cases hn : fieldN w = 0
  · simp [hn]
  · simp [hn]

/-- The unrecognised words, by family; the split numbers the decoder's lines from 1, so line `h_n` is family `n - 1`. -/
theorem decodeWord_error_iff (w : Word) : (∃ why, decodeWord w = .error why) ↔
    (fieldF w = 0x5 ∧ w.toNat % 16 ≠ 0) ∨
    (fieldF w = 0x8 ∧ w.toNat % 16 ∈ [0x8, 0x9, 0xA, 0xB, 0xC, 0xD, 0xF]) ∨
    (fieldF w = 0x9 ∧ w.toNat % 16 ≠ 0) ∨
    (fieldF w = 0xE ∧ w.toNat % 256 ∉ [0x9E, 0xA1]) ∨
    (fieldF w = 0xF ∧ w.toNat % 256 ∉ [0x07, 0x0A, 0x15, 0x18, 0x1E, 0x29, 0x33, 0x55, 0x65]) := by
  unfold decodeWord
  split
  case h_6 hf | h_10 hf => rw [ite_fieldN_error_iff, hf]; simp
  case h_9 hf => rw [decodeFamily8_error_iff, hf]; simp
  case h_15 hf => rw [decodeFamilyE_error_iff, hf]; simp
  case h_16 =>
    have hf : fieldF w = 0xF := by grind [fieldF_lt]
    rw [decodeFamilyF_error_iff, hf]; simp
  all_goals next hf => rw [hf]; simp

/-! ## The no-operation -/

namespace Machine

/-- Settles O5: the family is the word divided by 4096, and the cycle of an unrecognised word only advances. -/
theorem unrecognisedWordsAreNoOps : Obligations.UnrecognisedWordsAreNoOps := by
  constructor
  · intro w
    rw [decodeWord_error_iff, fieldF_eq]
  · intro s why hlatch hword
    refine ⟨s.advance, gatedCycle_unrecognised hlatch hword, fun _ => gatedCycle_unrecognised hlatch hword, rfl, ?_⟩
    exact (SameBut.refl _ s).advance (by simp)

end Machine

end Sys2Proof
end

section
/-!
PROOFS. Control flow (spec/41_control_flow.md R100 to R108) and the key skips (45_keypad_timers.md R180, R181): the
instructions that set pc alone, CALL and RET, and how nested calls unwind.
-/

namespace Sys2Proof.Machine

/-! ## Instructions that set pc alone -/

/-- An instruction that sets pc sets only pc. -/
theorem OnlySetsPc.of_setPc {i : Instr} {s : State} {w : Word} (h : exec i s = .next (s.setPc w)) : OnlySetsPc i s w :=
  ⟨_, h, rfl, (SameBut.refl _ s).setPc (by simp) w⟩

/-- A skip sets only pc, to one of two addresses. -/
theorem OnlySetsPc.of_skipIf {i : Instr} {s : State} {c : Prop} [Decidable c] {b : Bool} (hb : b = true ↔ c)
    (h : exec i s = .next (s.skipIf b)) : OnlySetsPc i s (if c then s.pc + 4 else s.pc + 2) := by
  refine ⟨_, h, ?_, (SameBut.refl _ s).skipIf (by simp) b⟩
  simp [hb]

/-- Settles O16: SYS is the advance alone. -/
theorem sysOnlyAdvances : Obligations.SysOnlyAdvances := fun _ _ => .of_setPc rfl

/-- An address as a word is its number. -/
theorem addrWord_eq_ofNat (nnn : Addr) : addrWord nnn = BitVec.ofNat 16 nnn.toNat :=
  BitVec.eq_of_toNat_eq (by simp [addrWord])

/-- An address keeps its number as a word. -/
theorem addrWord_toNat (nnn : Addr) : (addrWord nnn).toNat = nnn.toNat := by
  rw [addrWord_eq_ofNat, BitVec.toNat_ofNat, Nat.mod_eq_of_lt (by omega)]

/-- Settles O17: JP writes the zero-extended target. -/
theorem jpSetsPc : Obligations.JpSetsPc := by
  intro nnn s
  rw [← addrWord_eq_ofNat]
  exact .of_setPc rfl

/-- Settles O21: the four skips, each on its own comparison. -/
theorem skipsOnRegisters : Obligations.SkipsOnRegisters := by
  intro x y kk s
  exact ⟨.of_skipIf beq_iff_eq rfl, .of_skipIf bne_iff_ne rfl, .of_skipIf beq_iff_eq rfl, .of_skipIf bne_iff_ne rfl⟩

/-- The low nibble is the value modulo 16. -/
theorem lowNibble_val (b : Byte) : (lowNibble b).val = b.toNat % 16 := by
  simp [lowNibble]

/-- Settles O22: the key the skips test is that of V[X] modulo 16. -/
theorem skipsOnKeys : Obligations.SkipsOnKeys := by
  intro x k s hk
  obtain rfl : lowNibble (s.reg x) = k := Fin.ext ((lowNibble_val _).trans hk.symm)
  exact ⟨.of_skipIf Iff.rfl rfl, .of_skipIf (by simp) rfl⟩

/-- The top nibble of an address. -/
theorem topNibble_val (nnn : Addr) : (topNibble nnn).val = nnn.toNat / 256 := by
  have := nnn.isLt
  simp only [topNibble, BitVec.val_toFin, BitVec.extractLsb'_toNat, Nat.shiftRight_eq_div_pow]
  omega

/-- A base and an address add up as numbers: the sum fits in 16 bits. -/
theorem byteWord_add_addrWord (b : Byte) (nnn : Addr) :
    byteWord b + addrWord nnn = BitVec.ofNat 16 (b.toNat + nnn.toNat) :=
  BitVec.eq_of_toNat_eq (by simp [byteWord, addrWord])

/-- Settles O23: the base is the register that Jumping selects. -/
theorem jpV0AddsItsBase : Obligations.JpV0AddsItsBase := by
  intro nnn x s hx
  obtain rfl : topNibble nnn = x := Fin.ext ((topNibble_val nnn).trans hx.symm)
  have hbase : s.jumpBase nnn = s.reg (if s.q.jumping then topNibble nnn else 0) := (apply_ite s.reg _ _ _).symm
  rw [← byteWord_add_addrWord, ← hbase]
  exact .of_setPc rfl

/-! ## CALL and RET -/

/-- The state CALL leaves. -/
def State.called (s : State) (nnn : Addr) : State := (s.push s.pc).setPc (addrWord nnn)

/-- The state RET leaves. -/
def State.returned (s : State) : State := s.pop.setPc (s.top + 2)

theorem exec_call (nnn : Addr) (s : State) : exec (.call nnn) s = .next (s.called nnn) := rfl

theorem exec_ret (s : State) : exec .ret s = .next s.returned := rfl

/-- CALL moves the stack pointer up. -/
@[simp] theorem State.called_sp (s : State) (nnn : Addr) : (s.called nnn).sp = s.sp + 1 := rfl

/-- CALL goes on at its target. -/
@[simp] theorem State.called_pc (s : State) (nnn : Addr) : (s.called nnn).pc = addrWord nnn := rfl

/-- CALL writes its own address to the entry above the stack pointer, and no other entry. -/
theorem State.stackEntry_called (s : State) (nnn : Addr) (j : Fin 16) :
    (s.called nnn).stackEntry j = if j = s.sp + 1 then s.pc else s.stackEntry j :=
  s.stackEntry_push s.pc j

/-- CALL writes pc, the stack pointer and the stack. -/
theorem State.called_frame (s : State) (nnn : Addr) : SameBut [.pc, .sp, .stack] s (s.called nnn) :=
  instructionsWriteOnlyTheirParts _ s _ (exec_call nnn s)

/-- RET moves the stack pointer down. -/
@[simp] theorem State.returned_sp (s : State) : s.returned.sp = s.sp - 1 := rfl

/-- RET goes on two bytes after the entry at the stack pointer. -/
@[simp] theorem State.returned_pc (s : State) : s.returned.pc = s.stackEntry s.sp + 2 := rfl

/-- RET writes pc and the stack pointer. -/
theorem State.returned_frame (s : State) : SameBut [.pc, .sp] s s.returned :=
  instructionsWriteOnlyTheirParts _ s _ (exec_ret s)

/-- Settles O18, by what CALL does to each part. -/
theorem callPushesItsAddress : Obligations.CallPushesItsAddress := by
  intro nnn s
  refine ⟨_, exec_call nnn s, ?sp, ?entry, fun j hj => ?others, addrWord_toNat nnn, s.called_frame nnn⟩
  case sp => simp [Fin.val_add]
  case entry => rw [State.stackEntry_called, State.called_sp, if_pos rfl]
  case others => exact (s.stackEntry_called nnn j).trans (if_neg hj)

/-- Settles O19, by what RET does to each part. -/
theorem retResumesAfterCall : Obligations.RetResumesAfterCall := by
  intro s
  refine ⟨_, exec_ret s, rfl, ?sp, s.returned_frame⟩
  case sp => simp [Fin.sub_def, Nat.add_comm]

/-! ## Nested calls -/

/-- Frames grow. -/
theorem SameBut.mono {parts parts' : List StatePart} {s t : State} (h : SameBut parts s t) (hsub : parts ⊆ parts') :
    SameBut parts' s t :=
  fun p hp => h p fun hmem => hp (hsub hmem)

/-- A frame that lists the stack pointer need not, where the pointer ends where it was. -/
theorem SameBut.of_sp_eq {parts : List StatePart} {s t : State} (h : SameBut (.sp :: parts) s t) (hsp : t.sp = s.sp) :
    SameBut parts s t := by
  intro p hp
  by_cases hpsp : p = .sp
  · subst hpsp; exact hsp
  · exact h p (by simp [hpsp, hp])

/-- How many pushes it takes before the next one writes an entry: 0 for the entry above the stack pointer, 15 for the one
at it. -/
def State.pushesBefore (s : State) (j : Fin 16) : Nat := (j - (s.sp + 1)).val

/-- The entry above the stack pointer is the next to be written. -/
theorem State.pushesBefore_eq_zero {s : State} {j : Fin 16} : s.pushesBefore j = 0 ↔ j = s.sp + 1 := by
  simp [State.pushesBefore, sub_eq_zero, Fin.val_eq_zero_iff]

/-- The entry at the stack pointer is the last to be written. -/
theorem State.pushesBefore_sp (s : State) : s.pushesBefore s.sp = 15 := by
  rw [State.pushesBefore, sub_add_cancel_left]; rfl

/-- After a CALL every other entry is nearer by one. -/
theorem State.pushesBefore_called {s : State} {j : Fin 16} (hj : j ≠ s.sp + 1) (nnn : Addr) :
    (s.called nnn).pushesBefore j + 1 = s.pushesBefore j := by
  have hpos : j - (s.sp + 1) ≠ 0 := sub_ne_zero.mpr hj
  rw [State.pushesBefore, State.pushesBefore, State.called_sp, ← sub_sub j (s.sp + 1) 1, Fin.val_sub_one_of_ne_zero hpos]
  have : (j - (s.sp + 1)).val ≠ 0 := Fin.val_ne_of_ne hpos
  omega

/-- What `n` calls and their returns leave: the stack pointer as it was, the return address two bytes after the first CALL,
and every entry but the `n` above the stack pointer. -/
structure Unwinds (n : Nat) (s t : State) : Prop where
  /-- The stack pointer is where it was. -/
  sp : t.sp = s.sp
  /-- The run goes on after the first CALL. -/
  pc : n ≠ 0 → t.pc = s.pc + 2
  /-- The entries that `n` pushes do not reach. -/
  entries : ∀ j, n ≤ s.pushesBefore j → t.stackEntry j = s.stackEntry j
  /-- Nothing else has changed but pc and stack entries. -/
  frame : SameBut [.pc, .stack] s t

/-- A CALL, what it calls, and its RET: the inner calls do not reach the entry that holds the CALL's address. -/
theorem Unwinds.call_ret {n : Nat} {s u : State} {nnn : Addr} (hn : n < 16) (h : Unwinds n (s.called nnn) u) :
    Unwinds (n + 1) s u.returned := by
  have hsp : u.returned.sp = s.sp := by rw [State.returned_sp, h.sp, State.called_sp, add_sub_cancel_right]
  have hret : u.stackEntry u.sp = s.pc := by
    have hkept : n ≤ (s.called nnn).pushesBefore (s.called nnn).sp := by rw [State.pushesBefore_sp]; omega
    rw [h.sp, h.entries _ hkept, State.stackEntry_called, State.called_sp, if_pos rfl]
  refine ⟨hsp, fun _ => ?pc, fun j hj => ?entries, SameBut.of_sp_eq ?frame hsp⟩
  case pc => rw [State.returned_pc, hret]
  case entries =>
    have hne : j ≠ s.sp + 1 := fun e => by rw [State.pushesBefore_eq_zero.mpr e] at hj; omega
    have hkept := State.pushesBefore_called hne nnn
    calc u.returned.stackEntry j
      _ = u.stackEntry j := rfl
      _ = (s.called nnn).stackEntry j := h.entries j (by omega)
      _ = s.stackEntry j := by rw [State.stackEntry_called, if_neg hne]
  case frame =>
    have hcall := (s.called_frame nnn).mono (parts' := [.sp, .pc, .stack]) (by simp)
    have hinner := h.frame.mono (parts' := [.sp, .pc, .stack]) (by simp)
    exact (hcall.trans hinner).trans (u.returned_frame.mono (by simp))

/-- Up to sixteen nested calls unwind, by induction on their targets from any state. -/
theorem callsThenReturns_unwinds (targets : List Addr) (s : State) (hlen : targets.length ≤ 16) :
    ∃ t, callsThenReturns targets s = .next t ∧ Unwinds targets.length s t := by
  induction targets generalizing s with
  | nil => exact ⟨s, rfl, rfl, fun h => absurd rfl h, fun _ _ => rfl, SameBut.refl _ s⟩
  | cons nnn rest ih =>
    rw [List.length_cons] at hlen
    obtain ⟨u, hu, hinner⟩ := ih (s.called nnn) (by omega)
    refine ⟨u.returned, ?_, hinner.call_ret (by omega)⟩
    simp only [callsThenReturns, exec_call, hu, exec_ret]

/-- Settles O20: the return addresses lie in entries that the inner calls do not reach. -/
theorem callsUnwind : Obligations.CallsUnwind := by
  intro targets s hlen
  obtain ⟨t, hrun, h⟩ := callsThenReturns_unwinds targets s hlen
  exact ⟨t, hrun, h.sp, fun hne => h.pc (by simpa using hne), h.frame⟩

end Sys2Proof.Machine
end

section
/-!
PROOFS. The remaining register, arithmetic, index and timer instructions (spec/42_alu.md, 43_index_memory.md R140 to R142,
45_keypad_timers.md R182 to R185): each completes with one value written and pc advanced.
-/

namespace Sys2Proof.Machine

/-! ## Registers -/

/-- An instruction that writes a register and advances. -/
theorem WritesRegister.of_setReg {i : Instr} {s : State} {x : Reg} {b : Byte}
    (h : exec i s = .next (s.setReg x b).advance) : WritesRegister i s x b := by
  refine ⟨_, h, ?value, rfl, ?frame⟩
  case value => simp
  case frame => exact ((SameBut.refl _ s).setReg (by simp) b).advance (by simp)

/-- Settles O24: the loads write their operand, and ADD immediate the sum modulo 2^8. -/
theorem loadsAndImmediateAdd : Obligations.LoadsAndImmediateAdd := by
  intro x y kk s
  rw [← byte_add_eq_ofNat]
  exact ⟨.of_setReg rfl, .of_setReg rfl, .of_setReg rfl, .of_setReg rfl⟩

/-- The difference of two bytes is their difference as numbers modulo 2^8. -/
theorem byte_sub_eq_ofNat (a b : Byte) : a - b = BitVec.ofNat 8 ((256 + a.toNat - b.toNat) % 256) := by
  apply BitVec.eq_of_toNat_eq
  simp only [BitVec.toNat_sub, BitVec.toNat_ofNat]
  omega

/-- The absence of a borrow as the value of the flag (42_alu.md R128). -/
theorem noBorrow_flag (a b : Byte) : (if noBorrow a b then 1 else 0 : Byte) = if a.toNat ≥ b.toNat then 1 else 0 := by
  simp [noBorrow]

/-- Settles O27: the difference is written first and the flag after it. -/
theorem subtractionsSetNoBorrow : Obligations.SubtractionsSetNoBorrow := by
  intro x y s
  rw [← byte_sub_eq_ofNat, ← byte_sub_eq_ofNat, ← noBorrow_flag, ← noBorrow_flag]
  exact ⟨.of_setFlag rfl, .of_setFlag rfl⟩

/-- A right shift by one halves. -/
theorem byte_ushiftRight_one (b : Byte) : b >>> 1 = BitVec.ofNat 8 (b.toNat / 2) := by
  apply BitVec.eq_of_toNat_eq
  simp only [BitVec.toNat_ushiftRight, BitVec.toNat_ofNat, Nat.shiftRight_eq_div_pow]
  omega

/-- A left shift by one doubles modulo 2^8. -/
theorem byte_shiftLeft_one (b : Byte) : b <<< 1 = BitVec.ofNat 8 (b.toNat * 2 % 256) := by
  apply BitVec.eq_of_toNat_eq
  simp [Nat.shiftLeft_eq]

/-- The bit a right shift moves out is the remainder of the halving. -/
theorem shiftedOutRight_flag (b : Byte) : (if shiftedOutRight b then 1 else 0 : Byte) = BitVec.ofNat 8 (b.toNat % 2) := by
  rw [shiftedOutRight, BitVec.getLsbD, Nat.testBit_zero]
  obtain h | h := Nat.mod_two_eq_zero_or_one b.toNat <;> simp [h]

/-- The bit a left shift moves out is the top bit. -/
theorem shiftedOutLeft_flag (b : Byte) : (if shiftedOutLeft b then 1 else 0 : Byte) = BitVec.ofNat 8 (b.toNat / 128) := by
  have hb := b.isLt
  rw [shiftedOutLeft, BitVec.getLsbD, Nat.testBit_eq_decide_div_mod_eq]
  obtain h | h : b.toNat / 128 = 0 ∨ b.toNat / 128 = 1 := by omega
  all_goals simp [h]

/-- Settles O28: both shifts are on the same source, and write the flag last. -/
theorem shiftsSetTheBitOut : Obligations.ShiftsSetTheBitOut := by
  intro x y s v
  have hv : v = (s.shiftSource x y).toNat := rfl
  rw [hv, ← byte_ushiftRight_one, ← byte_shiftLeft_one, ← shiftedOutRight_flag, ← shiftedOutLeft_flag]
  exact ⟨.of_setFlag rfl, .of_setFlag rfl⟩

/-- CXKK on any byte. -/
theorem execRndWith_writes (rnd : Byte) (x : Reg) (kk : Byte) (s : State) :
    ∃ t, execRndWith rnd x kk s = .next t ∧ t.reg x = rnd &&& kk ∧ t.pc = s.pc + 2 ∧ t.draws = s.draws + 1 ∧
      SameBut [.pc, .reg x, .draws] s t := by
  refine ⟨_, rfl, ?value, rfl, rfl, ?frame⟩
  case value => simp
  case frame => exact execRndWith_frame (rnd := rnd) (kk := kk) rfl

/-- Settles O29: the free byte is one of the bytes. -/
theorem rndMasksItsByte : Obligations.RndMasksItsByte := by
  intro rnd x kk s
  obtain ⟨t, ht, hvalue, hpc, -, hframe⟩ := execRndWith_writes rnd x kk s
  exact ⟨⟨t, ht, hvalue, hpc, hframe⟩, execRndWith_writes s.freeByte x kk s⟩

/-! ## The index register -/

/-- An instruction that writes I and advances. -/
theorem WritesI.of_setI {i : Instr} {s : State} {w : Word} {n : Nat} (hw : w.toNat = n)
    (h : exec i s = .next (s.setI w).advance) : WritesI i s n :=
  ⟨_, h, hw, rfl, ((SameBut.refl _ s).setI (by simp) w).advance (by simp)⟩

/-- A glyph's address is five times its digit. -/
theorem glyphAddress_toNat (b : Byte) : (glyphAddress b).toNat = 5 * (b.toNat % 16) := by
  rw [glyphAddress, lowNibble_val, BitVec.toNat_ofNat]
  omega

/-- I and a register's value add up modulo 2^16. -/
theorem add_byteWord_toNat (w : Word) (b : Byte) : (w + byteWord b).toNat = (w.toNat + b.toNat) % 65536 := by
  have := b.isLt
  simp only [BitVec.toNat_add, byteWord, BitVec.toNat_setWidth]
  omega

/-- Settles O30, by the number each instruction writes to I. -/
theorem indexRegisterLoads : Obligations.IndexRegisterLoads := by
  intro nnn x s
  exact ⟨.of_setI (addrWord_toNat nnn) rfl, .of_setI (add_byteWord_toNat _ _) rfl, .of_setI (glyphAddress_toNat _) rfl⟩

/-! ## Timers and the latch -/

/-- Settles O40: each instruction writes its own timer. -/
theorem timerLoads : Obligations.TimerLoads := by
  intro x s
  exact ⟨⟨_, rfl, rfl, rfl, ((SameBut.refl _ s).setDt (by simp) _).advance (by simp)⟩,
    ⟨_, rfl, rfl, rfl, ((SameBut.refl _ s).setSt (by simp) _).advance (by simp)⟩⟩

/-- Settles O39: LD Vx, K writes the latch and advances. -/
theorem waitForKeyLatches : Obligations.WaitForKeyLatches := by
  intro x s
  exact ⟨_, rfl, rfl, rfl, ((SameBut.refl _ s).setLatch (by simp) _).advance (by simp)⟩

end Sys2Proof.Machine
end

section
/-!
PROOFS. The block copies (spec/43_index_memory.md R144, R145) and the fetch of what was stored (20_memory.md R60): stored
bytes, stored by FX55 or placed, are read back byte by byte.
-/

namespace Sys2Proof.Machine

/-! ## The block store -/

/-- The state FX55 leaves. -/
def State.storedRegs (s : State) (x : Reg) : State := ((s.memWriteList s.i (s.regsUpTo x)).setI (s.blockNextI x)).advance

theorem exec_storeRegs (x : Reg) (s : State) : exec (.storeRegs x) s = .next (s.storedRegs x) := rfl

/-- V[r] is stored at I + r. -/
theorem State.memRead_storedRegs {s : State} (hs : s.Inv) {x r : Reg} (hr : r ≤ x) :
    (s.storedRegs x).memRead (s.blockAddress r.val) = s.reg r := by
  have hlt : r.val < (s.regsUpTo x).length := by rw [State.regsUpTo_length]; exact Nat.lt_succ_of_le hr
  calc (s.storedRegs x).memRead (s.blockAddress r.val)
    _ = (s.regsUpTo x)[r.val] := State.memRead_memWriteList _ hs (by rw [State.regsUpTo_length]; omega) hlt
    _ = s.reg r := State.regsUpTo_getElem s x r.val hlt

/-- A byte outside the block is as before. -/
theorem State.memRead_storedRegs_of_ne {s : State} (hs : s.Inv) {x : Reg} {a : Word}
    (ha : ∀ k, k ≤ x.val → memIndex a ≠ memIndex (s.blockAddress k)) : (s.storedRegs x).memRead a = s.memRead a := by
  refine State.memRead_memWriteList_of_ne _ hs fun k hk => ha k ?_
  rw [State.regsUpTo_length] at hk
  omega

/-- Settles O32: the block is the list of registers stored from I. -/
theorem storeRegistersBlock : Obligations.StoreRegistersBlock := by
  intro x s
  exact ⟨_, exec_storeRegs x s, by simp [State.storedRegs], rfl,
    instructionsWriteOnlyTheirParts (.storeRegs x) s _ (exec_storeRegs x s),
    fun hs => ⟨fun _ => State.memRead_storedRegs hs, fun _ => State.memRead_storedRegs_of_ne hs⟩⟩

/-! ## The block load -/

/-- The state FX65 leaves. -/
def State.loadedRegs (s : State) (x : Reg) : State := ((s.loadRegsUpTo x).setI (s.blockNextI x)).advance

theorem exec_loadRegs (x : Reg) (s : State) : exec (.loadRegs x) s = .next (s.loadedRegs x) := rfl

/-- V[r] is loaded from I + r. -/
theorem State.reg_loadedRegs (s : State) {x r : Reg} (hr : r ≤ x) :
    (s.loadedRegs x).reg r = s.memRead (s.blockAddress r.val) := by
  have hle : r.val ≤ x.val := hr
  simp [State.loadedRegs, hle]

/-- The parts of FX65 are pc, I and V[0] to V[X]. -/
theorem notMem_writtenParts_loadRegs {x : Reg} {p : StatePart} (hpc : p ≠ .pc) (hi : p ≠ .i)
    (hreg : ∀ r : Reg, r ≤ x → p ≠ .reg r) : p ∉ writtenParts (.loadRegs x) := by
  simp only [writtenParts, List.mem_cons, List.mem_filterMap, not_or, not_exists, not_and]
  refine ⟨hpc, hi, fun r _ hr => ?_⟩
  split at hr
  · next hle => exact hreg r hle (Option.some.inj hr).symm
  · cases hr

/-- Settles O33: the frame is the table's, read part by part. -/
theorem loadRegistersBlock : Obligations.LoadRegistersBlock := by
  intro x s
  refine ⟨_, exec_loadRegs x s, ?pc, ?i, fun r hr => s.reg_loadedRegs hr, fun p hpc hi hreg => ?frame⟩
  case pc => simp [State.loadedRegs]
  case i => simp [State.loadedRegs, State.blockNextI]
  case frame => exact instructionsWriteOnlyTheirParts _ s _ (exec_loadRegs x s) p (notMem_writtenParts_loadRegs hpc hi hreg)

/-- Settles O34: the load reads the addresses the store wrote. -/
theorem storeThenLoadRestores : Obligations.StoreThenLoadRestores := by
  intro x s t u hs ht hmem hi
  cases (exec_storeRegs x s).symm.trans ht
  refine ⟨_, exec_loadRegs x u, fun r hr => ?_⟩
  calc (u.loadedRegs x).reg r
    _ = u.memRead (u.blockAddress r.val) := u.reg_loadedRegs hr
    _ = (s.storedRegs x).memRead (u.blockAddress r.val) := State.memRead_congr hmem _
    _ = (s.storedRegs x).memRead (s.blockAddress r.val) := by rw [State.blockAddress, State.blockAddress, hi]
    _ = s.reg r := State.memRead_storedRegs hs hr

/-! ## The fetch of stored bytes -/

/-- Addresses that select one cell read alike. -/
theorem State.memRead_of_memIndex_eq {s : State} {a c : Word} (h : memIndex a = memIndex c) :
    s.memRead a = s.memRead c := by
  simp only [State.memRead, h]

/-- Their successors select one cell too. -/
theorem memIndex_succ_congr {a c : Word} (h : memIndex a = memIndex c) : memIndex (a + 1) = memIndex (c + 1) :=
  (SameAddress.add_right (a := a) (b := c) h 1).memIndex_eq

/-- The next byte of a block follows the one before it. -/
theorem State.blockAddress_succ (s : State) (k : Nat) : s.blockAddress k + 1 = s.blockAddress (k + 1) := by
  rw [State.blockAddress, State.blockAddress, BitVec.add_assoc, BitVec.ofNat_add]
  rfl

/-- Settles O35: the fetch reads the two cells that hold V[j] and V[k]. -/
theorem storedBytesAreFetched : Obligations.StoredBytesAreFetched := by
  intro x j k s t hs ht hk hkx hpc
  cases (exec_storeRegs x s).symm.trans ht
  have hpc' : memIndex ((s.storedRegs x).pc + 1) = memIndex (s.blockAddress k.val) := by
    rw [hk, ← State.blockAddress_succ]
    exact memIndex_succ_congr hpc
  have hjx : j.val ≤ x.val := by have : k.val ≤ x.val := hkx; omega
  have hhi : (s.storedRegs x).memRead (s.storedRegs x).pc = s.reg j :=
    (State.memRead_of_memIndex_eq hpc).trans (State.memRead_storedRegs hs hjx)
  have hlo : (s.storedRegs x).memRead ((s.storedRegs x).pc + 1) = s.reg k :=
    (State.memRead_of_memIndex_eq hpc').trans (State.memRead_storedRegs hs hkx)
  exact congrArg₂ wordOfBytes hhi hlo

/-! ## The fetch of a placed word -/

/-- A placed word is what the fetch reads. -/
theorem State.fetch_placeWord {s : State} (hs : s.Inv) (w : Word) : (s.placeWord w).fetch = w := by
  have hlen : (bytesOfWord w).length = 2 := rfl
  have hlatch : (s.setLatch none).Inv := hs
  have hhi : (s.placeWord w).memRead s.pc = w.extractLsb' 8 8 := by
    simpa [bytesOfWord, State.placeWord] using
      State.memRead_memWriteList (bytesOfWord w) (a := s.pc) (k := 0) hlatch (by simp [hlen]) (by simp [hlen])
  have hlo : (s.placeWord w).memRead (s.pc + 1) = w.extractLsb' 0 8 :=
    State.memRead_memWriteList (bytesOfWord w) (a := s.pc) (k := 1) hlatch (by simp [hlen]) (by simp [hlen])
  have hpc : (s.placeWord w).pc = s.pc := by simp [State.placeWord]
  rw [State.fetch, hpc, hhi, hlo, wordOfBytes_bytesOfWord]

/-- Placing a word clears the latch. -/
@[simp] theorem State.placeWord_latch (s : State) (w : Word) : (s.placeWord w).latch = none := by
  simp [State.placeWord]

/-- Placing a word writes memory and the latch. -/
theorem State.placeWord_frame (s : State) (w : Word) : SameBut [.mem, .latch] s (s.placeWord w) :=
  ((SameBut.refl _ s).setLatch (by simp) none).memWriteList (by simp) _ _

/-- A word of the table that decodes, as a word of the machine. -/
theorem decodeWord_of_decodeTableWord {w : Nat} {i : Instr} (h : decodeTableWord 16 w = some i) :
    decodeWord (BitVec.ofNat 16 (w % 2 ^ 16)) = .ok i := by
  unfold decodeTableWord at h
  generalize BitVec.ofNat 16 (w % 2 ^ 16) = op at h ⊢
  simp only [bytesOfWord, decodeBytes, wordOfBytes_bytesOfWord] at h
  cases hd : decodeWord op with
  | ok j => rw [hd] at h; exact congrArg Except.ok (Option.some.inj h)
  | error why => rw [hd] at h; cases h

/-- Settles O56: the step after the placing is unlatched and fetches the word. -/
theorem placedWordRuns : Obligations.PlacedWordRuns := by
  intro w i s hs hw
  refine ⟨gatedCycle_instr (s.placeWord_latch _) ?_, s.placeWord_frame _⟩
  rw [State.withFetchWord, State.fetch_placeWord hs]
  exact decodeWord_of_decodeTableWord hw

end Sys2Proof.Machine
end

section
/-!
PROOFS. Drawing (spec/44_display.md R160 to R163): one draw toggles the pixels its sprite covers, and a second one of the
same sprite at the same place toggles them back.
-/

namespace Sys2Proof.Machine

/-- The state DRW leaves, given its drawing. -/
def State.drawn (s : State) (d : Drawing) : State := ((s.setDisp d.disp).setFlag d.hit).advance

theorem exec_drw (x y : Reg) (n : Fin 16) (s : State) :
    exec (.drw x y n) s = .next (s.drawn (s.drawSprite (s.startColumn x) (s.startRow y) n.val)) := rfl

/-- VF after a draw is its collision flag. -/
@[simp] theorem State.reg_drawn_VF (s : State) (d : Drawing) : (s.drawn d).reg VF = if d.hit then 1 else 0 := by
  simp [State.drawn]

/-- The flag is 1 exactly on a collision. -/
theorem State.reg_drawn_VF_eq_one (s : State) (d : Drawing) : (s.drawn d).reg VF = 1 ↔ d.hit = true := by
  cases hd : d.hit <;> simp [hd]

/-- A draw toggles its sprite's pixels, and hits exactly when one of them was lit. -/
theorem State.drawSprite_hit (s : State) (x0 y0 : Nat) (n : Fin 16) :
    (s.drawSprite x0 y0 n.val).hit = true ↔ ∃ px py, SpriteCovers s x0 y0 n.val px py ∧ s.disp.pixel px py = true := by
  simpa using (s.drawSprite_toggles x0 y0 n).hit

/-- Settles O37: the drawing toggles the covered pixels, and its flag is what VF ends with. -/
theorem drawTogglesTheSprite : Obligations.DrawTogglesTheSprite := by
  intro x y n s covers
  have htoggles := s.drawSprite_toggles (s.startColumn x) (s.startRow y) n
  have hhit := s.drawSprite_hit (s.startColumn x) (s.startRow y) n
  refine ⟨_, exec_drw x y n s, htoggles.on, htoggles.off, fun hlit => ?lit, fun hdark => ?dark, rfl,
    instructionsWriteOnlyTheirParts _ s _ (exec_drw x y n s)⟩
  case lit => exact (s.reg_drawn_VF_eq_one _).mpr (hhit.mpr hlit)
  case dark => rw [State.reg_drawn_VF, if_neg (hhit.not.mpr hdark)]

/-- A sprite covers the same pixels in a state with the same memory, I and Q. -/
theorem SpriteCovers.congr {s t : State} (hmem : t.mem = s.mem) (hi : t.i = s.i) (hq : t.q = s.q) :
    SpriteCovers t = SpriteCovers s := by
  funext x0 y0 n px py
  simp only [SpriteCovers, State.memRead_congr hmem, hi, hq]

/-- Settles O38: the second draw covers the same pixels, so it toggles each of them back, and finds lit exactly those that
were 0 before the first. -/
theorem drawTwiceRestores : Obligations.DrawTwiceRestores := by
  intro x y n s t ht hx hy
  cases (exec_drw x y n s).symm.trans ht
  generalize hd : s.drawSprite (s.startColumn x) (s.startRow y) n.val = d at *
  have first : Drawing.Toggles (SpriteCovers s (s.startColumn x) (s.startRow y) n.val) ⟨s.disp, false⟩ d :=
    hd ▸ s.drawSprite_toggles (s.startColumn x) (s.startRow y) n
  have hcol : (s.drawn d).startColumn x = s.startColumn x := hx
  have hrow : (s.drawn d).startRow y = s.startRow y := hy
  have hcovers : SpriteCovers (s.drawn d) = SpriteCovers s := SpriteCovers.congr rfl rfl rfl
  have second := (s.drawn d).drawSprite_toggles (s.startColumn x) (s.startRow y) n
  have hhit := (s.drawn d).drawSprite_hit (s.startColumn x) (s.startRow y) n
  rw [hcovers] at second hhit
  refine ⟨_, exec_drw x y n (s.drawn d), fun px py => ?pixel, ?flag⟩
  all_goals rw [hcol, hrow]
  case pixel =>
    by_cases hc : SpriteCovers s (s.startColumn x) (s.startRow y) n.val px py
    · exact (second.on px py hc).trans ((congrArg (!·) (first.on px py hc)).trans (Bool.not_not _))
    · exact (second.off px py hc).trans (first.off px py hc)
  case flag =>
    rw [State.reg_drawn_VF_eq_one, hhit]
    refine exists_congr fun px => exists_congr fun py => and_congr_right fun hc => ?_
    rw [show (s.drawn d).disp.pixel px py = !s.disp.pixel px py from first.on px py hc, Bool.not_eq_true']

end Sys2Proof.Machine
end

section
/-!
PROOFS. The host's transactions (spec/60_exceptions.md R209 to R215, 70_reset_and_hazards.md): the state before the first
LOAD, LOAD, KEY, SET_QUIRKS and the queries.
-/

namespace Sys2Proof.Machine

/-! ## Before the first LOAD -/

/-- The state before the first LOAD differs from `State.reset` in memory alone. -/
theorem State.powerOn_eq (font : Font) : State.powerOn font = { State.reset with mem := (State.powerOn font).mem } :=
  State.memWriteList_eq font.toList State.reset 0

/-- Q is at its default before the first LOAD. -/
@[simp] theorem State.powerOn_q (font : Font) : (State.powerOn font).q = Quirks.default :=
  State.memWriteList_q State.reset 0 font.toList

/-- Settles O10: the default FONT lists nothing, so with it the state is `State.reset` as it stands. -/
theorem resetState : Obligations.ResetState := by
  refine ⟨fun font => ⟨State.resetValues_powerOn font, State.memRead_powerOn font, ?_⟩, ?_⟩
  · rw [State.powerOn_q]; decide
  · rw [State.powerOn_eq, State.powerOn_defaultFont_mem]; rfl

/-- Settles O11: installing a FONT is a store of bytes. -/
theorem resetMemoryIsCanonical : Obligations.ResetMemoryIsCanonical :=
  ⟨rfl, State.powerOn_inv⟩

/-! ## LOAD -/

/-- LOAD of a ROM that fits: the reset, then the ROM's bytes. -/
theorem load_of_le {rom : List Byte} (h : rom.length ≤ 3584) (s : State) (font : Font) :
    load rom s font = (.ok, (s.loadReset font).memWriteList (BitVec.ofNat 16 Config.progBase) rom) :=
  if_neg (Nat.not_lt.mpr h)

/-- LOAD of a ROM that does not fit: the reset alone. -/
theorem load_of_gt {rom : List Byte} (h : rom.length > 3584) (s : State) (font : Font) :
    load rom s font = (.programTooLarge, s.loadReset font) :=
  if_pos h

/-- The k-th byte of a ROM that fits goes to the cell 0x200 + k. -/
theorem memIndex_progBase_add {k : Nat} (hk : k < 3584) :
    memIndex (BitVec.ofNat 16 Config.progBase + BitVec.ofNat 16 k) = 0x200 + k := by
  simp only [memIndex, Config.memSize, Config.progBase, BitVec.toNat_add, BitVec.toNat_ofNat]
  omega

/-- The ROM's bytes are read back from 0x200. -/
theorem memRead_load_rom {rom : List Byte} (hrom : rom.length ≤ 3584) (s : State) (font : Font) {j : Nat}
    (hj : j < rom.length) : (load rom s font).2.memRead (BitVec.ofNat 16 (0x200 + j)) = rom[j] := by
  rw [load_of_le hrom, BitVec.ofNat_add]
  exact State.memRead_memWriteList rom (s.loadReset_inv font) (by omega) hj

/-- Outside the ROM memory is as before the first LOAD. -/
theorem memRead_load_of_notMem {rom : List Byte} (hrom : rom.length ≤ 3584) (s : State) (font : Font) {a : Word}
    (ha : memIndex a < 0x200 ∨ 0x200 + rom.length ≤ memIndex a) :
    (load rom s font).2.memRead a = clearedByte font a := by
  have hne : ∀ k, k < rom.length → memIndex a ≠ memIndex (BitVec.ofNat 16 Config.progBase + BitVec.ofNat 16 k) :=
    fun k hk => by rw [memIndex_progBase_add (by omega)]; omega
  rw [load_of_le hrom, State.memRead_memWriteList_of_ne rom (s.loadReset_inv font) hne, State.memRead_loadReset,
    State.memRead_powerOn]

/-- Settles O45: the ROM is stored over the reset's memory, and a store leaves every other part. -/
theorem loadInstallsProgram : Obligations.LoadInstallsProgram := by
  intro rom s font hrom
  refine ⟨?answer, _, rfl, fun j => memRead_load_rom hrom s font, fun a => memRead_load_of_notMem hrom s font, ?values, ?q⟩
  case answer => rw [answer, load_of_le hrom]
  all_goals rw [load_of_le hrom]
  case values => exact (s.resetValues_loadReset font).memWriteList _ rom
  case q => simp

/-- Settles O46: a rejected LOAD is the reset alone. -/
theorem oversizedLoadResets : Obligations.OversizedLoadResets := by
  intro rom s font hrom
  refine ⟨?answer, _, rfl, ?_⟩
  case answer => rw [answer, load_of_gt hrom]
  rw [load_of_gt hrom]
  exact ⟨State.memRead_powerOn font, s.resetValues_loadReset font, rfl⟩

/-- Below 0x050 the byte that LOAD leaves is FONT's. -/
theorem clearedByte_of_lt {font : Font} {a : Word} {k : Nat} (ha : memIndex a = k) (hk : k < 80) :
    clearedByte font a = font[k] := by
  subst ha
  exact dif_pos hk

/-- The r-th byte of a digit's glyph is in the font's region. -/
theorem memIndex_glyphAddress_add (b : Byte) {r : Nat} (hr : r < 5) :
    memIndex (glyphAddress b + BitVec.ofNat 16 r) = 5 * (b.toNat % 16) + r := by
  simp only [memIndex, Config.memSize, BitVec.toNat_add, BitVec.toNat_ofNat, glyphAddress_toNat]
  omega

/-- Settles O47: the glyphs lie below the ROM, so the bytes at I are FONT's. -/
theorem loadedFontHoldsTheGlyphs : Obligations.LoadedFontHoldsTheGlyphs := by
  intro rom s t u font x r hr hrom ht hmem
  cases ht
  have hindex := memIndex_glyphAddress_add (u.reg x) hr
  refine ⟨_, rfl, ?_⟩
  calc u.memRead (glyphAddress (u.reg x) + BitVec.ofNat 16 r)
    _ = (load rom s font).2.memRead (glyphAddress (u.reg x) + BitVec.ofNat 16 r) := State.memRead_congr hmem _
    _ = clearedByte font (glyphAddress (u.reg x) + BitVec.ofNat 16 r) :=
      memRead_load_of_notMem hrom s font (.inl (by omega))
    _ = font[5 * ((u.reg x).toNat % 16) + r] := clearedByte_of_lt hindex (by omega)

/-! ## KEY -/

/-- A release while no register waits changes nothing but its key flag. -/
theorem State.resolveWait_of_latch_none {s : State} (h : s.latch = none) (k : Fin 16) : s.resolveWait k = s := by
  simp [State.resolveWait, h]

/-- A release while a register waits writes the code to it and ends the wait. -/
theorem State.resolveWait_of_latch_some {s : State} {r : Reg} (h : s.latch = some r) (k : Fin 16) :
    s.resolveWait k = (s.setReg r (BitVec.ofNat 8 k.val)).setLatch none := by
  simp [State.resolveWait, h]

/-- A release changes no key flag but by recording it. -/
@[simp] theorem State.key_resolveWait (s : State) (k j : Fin 16) : (s.resolveWait k).key j = s.key j := by
  unfold State.resolveWait; split <;> rfl

/-- KEY of a valid code sets its flag and no other. -/
theorem key_flags {k : Fin 16} {pressed : Bool} {s : State} (j : Fin 16) :
    (key k.val pressed s).2.key j = if j.val = k.val then pressed else s.key j := by
  have hk : k.val ≤ 15 := by omega
  cases pressed
  · simp [key_release hk, Fin.ext_iff]
  · simp [key_press hk, Fin.ext_iff]

/-- A press, or a release with no wait pending, writes key flags alone. -/
theorem key_frame {k : Nat} (hk : k ≤ 15) {pressed : Bool} {s : State} (h : pressed = true ∨ s.latch = none) :
    SameBut [.keys] s (key k pressed s).2 := by
  cases pressed with
  | true => rw [key_press hk]; exact (SameBut.refl _ s).setKey (by simp) _ _
  | false =>
    have hlatch : (s.setKey (Fin.ofNat 16 k) false).latch = none := by simpa using h
    rw [key_release hk, State.resolveWait_of_latch_none hlatch]
    exact (SameBut.refl _ s).setKey (by simp) _ _

/-- A release during a wait writes the code to the latched register and clears the latch. -/
theorem key_release_waiting {k : Nat} (hk : k ≤ 15) {s : State} {r : Reg} (h : s.latch = some r) :
    key k false s = (.ok, ((s.setKey (Fin.ofNat 16 k) false).setReg r (BitVec.ofNat 8 (k % 16))).setLatch none) := by
  have hlatch : (s.setKey (Fin.ofNat 16 k) false).latch = some r := h
  rw [key_release hk, State.resolveWait_of_latch_some hlatch, Fin.val_ofNat]

/-- Settles O43, by the code, the transition and the latch. -/
theorem keyTransaction : Obligations.KeyTransaction := by
  intro k pressed s font
  refine ⟨fun hk => ⟨?rejected, ?unchanged⟩, fun hk => ⟨?accepted, _, rfl, fun j => ?flags, key_frame hk, ?waiting⟩⟩
  case rejected => rw [answer, key_of_gt hk]
  case unchanged => rw [transact, key_of_gt hk]
  case accepted => cases pressed <;> simp [answer, key_press hk, key_release hk]
  case flags => exact key_flags (k := ⟨k, by omega⟩) j
  case waiting =>
    rintro r rfl hlatch
    rw [key_release_waiting hk hlatch]
    refine ⟨rfl, ?code, ?frame⟩
    case code => simp only [State.reg_setLatch, State.reg_setReg, if_true, BitVec.toNat_ofNat]; omega
    case frame =>
      exact (((SameBut.refl _ s).setKey (by simp) _ _).setReg (by simp) _).setLatch (by simp) none

/-! ## The queries, and Q -/

/-- READ_PIXEL inside the screen. -/
theorem readPixel_of_lt (x : Fin 64) (y : Fin 32) (s : State) : readPixel x.val y.val s = some (s.disp.pixel x y) :=
  dif_pos ⟨x.isLt, y.isLt⟩

/-- READ_PIXEL outside it. -/
theorem readPixel_of_ge {x y : Nat} (h : x ≥ 64 ∨ y ≥ 32) (s : State) : readPixel x y s = none :=
  dif_neg (by omega)

/-- Settles O48: the answers are those of the three query functions, and the queries' effect is none. -/
theorem queriesAnswer : Obligations.QueriesAnswer := by
  intro s font
  refine ⟨fun x y => ?inside, fun x y h => ?outside, fun h => ?free, fun r h => ?waiting, fun h => ?silent,
    fun h => ?sounding, fun _ _ => rfl, rfl, rfl⟩
  case inside => rw [answer, readPixel_of_lt]
  case outside => rw [answer, readPixel_of_ge h]
  case free | waiting => simp [answer, awaitingKey, h]
  case silent => simp [answer, soundActive, h]
  case sounding => simpa [answer, soundActive] using h

/-- Settles O49: SET_QUIRKS is the write of Q. -/
theorem setQuirksWritesQ : Obligations.SetQuirksWritesQ :=
  fun q s _ => ⟨_, rfl, rfl, (SameBut.refl _ s).setQ (by simp) q⟩

/-- Settles O50, by the thirty-two values of Q. -/
theorem quirkLayout : Obligations.QuirkLayout := by
  refine ⟨fun q => ?_, by decide⟩
  obtain ⟨f, s, j, c, m⟩ := q
  revert f s j c m
  decide

end Sys2Proof.Machine
end
